-- ==== Sys2Proof/Word.lean ====
section
/-! DEFINITION. The word types of the block's ports and of its two number formats. -/

namespace Sys2Proof

/-- A one-bit port or field: the operation select `op` (R13) or a sign bit (R30, R31). -/
abbrev Bit := BitVec 1

/-- A binary16 bit pattern (R31). -/
abbrev Half := BitVec 16

/-- A binary32 bit pattern (R30), and the width of the operand and result ports `a` and `y` (R13). -/
abbrev Word := BitVec 32

/-- A request word REQ = op ++ a, 33 bits (R35). -/
abbrev ReqWord := BitVec 33

end Sys2Proof
end

