-- ==== Sys2Proof/Config.lean ====
section
/-! DEFINITION. What an implementation fixes and no rule of the block reads (93_implementation_defined.md
section 2). The conversions take no configuration: "A model takes no draw, configuration field or parameter for
any result", so nothing here reaches a result. -/

namespace Sys2Proof

/-- The values `HOST_ENDIAN` can take. DESIGN CHOICE, safe: the spec names the parameter (R21, D6) and lists no
values; the model allows the two common orders, and no definition reads them (log entry 14). -/
inductive ByteOrder where
  | littleEndian
  | bigEndian
deriving DecidableEq, Repr, Inhabited

/-- `LATENCY`: an implementation's output latency in cycles (R104, D10). Not observable: the model has no time. -/
opaque Config.latency : Nat

/-- `HOST_ENDIAN`: the byte order of the host's memory (R21, D6). Outside the block, which moves no bytes. -/
opaque Config.hostEndian : ByteOrder

end Sys2Proof
end

