-- ==== Sys2Proof/Syntax.lean ====
section
/-! DEFINITION. The requests of the block (R19, R36), the written forms of a request (R41), its two calling
conventions (R42) and the host's program statement (R41). -/

namespace Sys2Proof

/-- A request: one constructor per row of spec/opcode_table.json. -/
inductive Instr where
  /-- NARROW (`op = 0`): `a` is the binary32 operand, bits 31:0 of the request word (R37, R50). -/
  | narrow (a : Word)
  /-- WIDEN (`op = 1`): `x` is bits 31:16, which the block ignores (R17), and `h` the binary16 operand, bits
  15:0 (R37, R70). -/
  | widen (x h : Half)
deriving DecidableEq, Repr

/-- The row's mnemonic in spec/opcode_table.json (R36). -/
def Instr.mnemonic : Instr → String
  | .narrow _ => "NARROW"
  | .widen _ _ => "WIDEN"

/-- The three assembler lines of R41. -/
inductive AsmLine where
  /-- `NARROW <a>`, `<a>` written with 8 hex digits. -/
  | narrow (a : Word)
  /-- `WIDEN <h>`, `<h>` written with 4 hex digits. -/
  | widenHalf (h : Half)
  /-- `WIDEN <a>`, `<a>` written with 8 hex digits. -/
  | widenWord (a : Word)
deriving DecidableEq, Repr

/-- The two calling conventions of R42. -/
inductive CallingConvention where
  /-- `y = narrow(x)` -/
  | valueReturning
  /-- `narrow_to(&out, x)` -/
  | outputParameter
deriving DecidableEq, Repr

/-- A conversion called under one of the conventions of R42. -/
inductive PseudoForm where
  | narrow (c : CallingConvention) (x : Word)
  | widen (c : CallingConvention) (h : Half)
deriving DecidableEq, Repr

/-- What the host stores after a pseudo-form: `y[15:0]` for a narrowing, `y` for a widening (R42). -/
inductive Stored where
  | half (v : Half)
  | word (v : Word)
deriving DecidableEq, Repr

/-- The host statement `vD <- OP vS` of R41: the numbers of the host variables and the operation select. -/
structure HostStmt where
  dst : Nat
  op : Bit
  src : Nat
deriving DecidableEq, Repr

end Sys2Proof
end

