-- ==== Sys2Proof/WellFormed.lean ====
section
/-! DEFINITION. Which numbers are request words and which requests are legal. The types carry the widths of the
operands, and R39 leaves no request illegal, so the one check that can refuse is the length of a request word. -/

namespace Sys2Proof

/-- A number is a request word when it has no bit above bit 32: the length is fixed at 33 bits (R35). -/
def isRequestWord (w : Nat) : Bool := decide (w < 2 ^ 33)

/-- Every request is legal: "every value of `a` is a legal operand" (R39), and any `a[31:16]` of WIDEN (R17). -/
def Instr.wf : Instr → Bool
  | .narrow _ => true
  | .widen _ _ => true

end Sys2Proof
end

