-- ==== Sys2Proof/Decode.lean ====
section
/-! DEFINITION. From request words to requests and back (R35 to R40). The block moves no bytes and has no byte
order (R21), so the decoder reads the 33-bit word itself, bit i of the word being bit i of `op ++ a`. -/

namespace Sys2Proof

/-- Bit 32 of a request word: the operation select (R35). -/
def opField (w : ReqWord) : Bit := w.extractLsb' 32 1

/-- Bits 31:0 of a request word: the operand (R35). -/
def operandField (w : ReqWord) : Word := w.extractLsb' 0 32

/-- Bits 31:16 of a request word, don't-care in WIDEN (R37, R39). -/
def ignoredField (w : ReqWord) : Half := w.extractLsb' 16 16

/-- Bits 15:0 of a request word: WIDEN's binary16 operand (R37). -/
def halfField (w : ReqWord) : Half := w.extractLsb' 0 16

/-- Decoding is total: "all 2^33 request words decode" (R39), told apart "from bit 32 alone" (R36, R40). -/
def decode (w : ReqWord) : Instr :=
  if opField w = 0#1 then .narrow (operandField w)
  else .widen (ignoredField w) (halfField w)

/-- Why a number is not decoded. -/
inductive DecodeError where
  /-- The number has a bit above bit 32, so it is no request word (R35). Raised by `decodeNat` alone; safe: the
  block has no such input (log entry 6). -/
  | notARequestWord
deriving DecidableEq, Repr

/-- The answer to decoding a number. -/
inductive Decoded where
  | request (i : Instr)
  | rejected (e : DecodeError)
deriving DecidableEq, Repr

/-- Decoding any number: a request word decodes, anything longer is rejected by name. -/
def decodeNat (w : Nat) : Decoded :=
  if isRequestWord w then .request (decode (BitVec.ofNat 33 w)) else .rejected .notARequestWord

/-- The decoder's answer to an opcode-table word of `nbits` bits, all higher bits being zero. -/
def decodeTableWord (nbits w : Nat) : Option Instr :=
  match decodeNat (w % 2 ^ nbits) with
  | .request i => some i
  | .rejected _ => none

/-- `REQ = op ++ a` (R35). -/
def joinRequest (op : Bit) (a : Word) : ReqWord := op ++ a

/-- A 32-bit operand from its halves: bits 31:16 and bits 15:0. -/
def joinHalves (x h : Half) : Word := x ++ h

/-- The request word of a request: `REQ = op ++ a` (R35, R36), with `a = x ++ h` in WIDEN (R37). -/
def encode : Instr → ReqWord
  | .narrow a => joinRequest 0#1 a
  | .widen x h => joinRequest 1#1 (joinHalves x h)

/-- One row of the opcode map (30_encoding.md section 3): a word is the row's when the bits under `mask` are
those of `pattern`. -/
structure OpcodeRow where
  mnemonic : String
  pattern : ReqWord
  mask : ReqWord
deriving DecidableEq, Repr

/-- The opcode map: spec/opcode_table.json's two rows, their match and mask. -/
def opcodeRows : List OpcodeRow :=
  [⟨"NARROW", 0x000000000#33, 0x100000000#33⟩, ⟨"WIDEN", 0x100000000#33, 0x100000000#33⟩]

/-- A word belongs to a row. -/
def OpcodeRow.covers (r : OpcodeRow) (w : ReqWord) : Bool := w &&& r.mask == r.pattern

end Sys2Proof
end

