-- ==== Sys2Proof/Machine/State.lean ====
section
/-! DEFINITION. The state: the block's own state, which is empty (R10, R100), and the ports of the combined block
and of the two standalone blocks (R13). There is no register, program counter, flag, control register or memory to
hold (R11, R20). -/

namespace Sys2Proof.Machine

/-- The block's own state: "the block's state type is the unit type" (R100, R10). -/
abbrev BlockState := Unit

/-- The reasons the machine stops with a fault: none exists. "No request raises an exception, so no cause code,
faulting address or recorded instruction bits exist" (R90). -/
inductive Fault where
deriving DecidableEq, Repr

/-- The reasons a request has no meaning in the model. -/
inductive Refusal where
  /-- No meaning has been written for the request. Would be raised by `exec`'s arm of that request, and no arm
  raises it; safe. -/
  | notModelled (mnemonic : String)
deriving DecidableEq, Repr

/-- The block's own (empty) state and the values on its ports (R13). The input ports are the host's to drive, the
output ports the block's (log entry 1). -/
structure State where
  /-- The block's own state, the one value of the unit type (R100). -/
  block : BlockState
  /-- Combined block, in: the operation select. -/
  op : Bit
  /-- Combined block, in: the operand. -/
  a : Word
  /-- Combined block, out: the result. -/
  y : Word
  /-- Standalone fp32_to_fp16_converter, in. -/
  f32In : Word
  /-- Standalone fp32_to_fp16_converter, out. -/
  f16Out : Half
  /-- Standalone fp16_to_fp32_converter, in. -/
  f16In : Half
  /-- Standalone fp16_to_fp32_converter, out. -/
  f32Out : Word
deriving DecidableEq, Repr

/-- After reset. The block has nothing to reset (R100). DESIGN CHOICE, unsafe: the input ports carry zeros (log
entry 2). DEDUCED, unsafe: the outputs are those of R14 for these inputs, during and after reset alike (R100, log
entry 3); they too are zeros. -/
def State.reset : State where
  block := ()
  op := 0#1
  a := 0#32
  y := 0#32
  f32In := 0#32
  f16Out := 0#16
  f16In := 0#16
  f32Out := 0#32

end Sys2Proof.Machine
end

