-- ==== Sys2Proof/Machine/Ops.lean ====
section
/-! DEFINITION. The operations on ports that requests and steps share. There is no operation on registers or
memory (R11, R20) and no exception to take or return from (R90, R95). -/

namespace Sys2Proof.Machine

/-- The request word present on the combined block's input ports, `op ++ a` (30_encoding.md section 2). -/
def State.requestWord (s : State) : ReqWord := joinRequest s.op s.a

/-- The host drives the combined block's input ports with a request word, and nothing else (R19). -/
def State.presentWord (s : State) (w : ReqWord) : State :=
  { s with op := opField w, a := operandField w }

/-- The host presents a request (R19). -/
def State.present (s : State) (i : Instr) : State := s.presentWord (encode i)

/-- The combined block drives its output port `y`, and nothing else (R13, R24). -/
def State.driveY (s : State) (v : Word) : State := { s with y := v }

end Sys2Proof.Machine
end

