-- ==== Sys2Proof/Machine/Operands.lean ====
section
/-! DEFINITION. The fields of the two formats (R30, R31), their classes (R32, R33), the patterns the conversions
assemble, and the assembly of operands and results (R37, R38). -/

namespace Sys2Proof.Machine

/-! ### Binary32 fields (R30) -/

/-- `s = a[31]` -/
def sign32 (a : Word) : Bit := a.extractLsb' 31 1
/-- `E = a[30:23]` -/
def exp32 (a : Word) : BitVec 8 := a.extractLsb' 23 8
/-- `M = a[22:0]` -/
def man32 (a : Word) : BitVec 23 := a.extractLsb' 0 23
/-- The magnitude bits `a[30:0]`. -/
def mag32 (a : Word) : BitVec 31 := a.extractLsb' 0 31
/-- The round bit of the normal range, `a[12]` (R61). -/
def roundBit32 (a : Word) : Bit := a.extractLsb' 12 1

/-! ### Binary16 fields (R31) -/

/-- `s = h[15]` -/
def sign16 (h : Half) : Bit := h.extractLsb' 15 1
/-- `E = h[14:10]` -/
def exp16 (h : Half) : BitVec 5 := h.extractLsb' 10 5
/-- `M = h[9:0]` -/
def man16 (h : Half) : BitVec 10 := h.extractLsb' 0 10
/-- The magnitude bits `h[14:0]`. -/
def mag16 (h : Half) : BitVec 15 := h.extractLsb' 0 15

/-! ### Patterns -/

/-- A binary16 pattern from its sign and its 15 magnitude bits: `s ++ m`. -/
def join16 (s : Bit) (m : BitVec 15) : Half := s ++ m
/-- A binary32 pattern from its three fields: `s ++ e ++ f`. -/
def join32 (s : Bit) (e : BitVec 8) (f : BitVec 23) : Word := s ++ (e ++ f)
/-- Signed binary16 zero (R53). -/
def zero16 (s : Bit) : Half := join16 s 0#15
/-- Signed binary16 infinity (R55): exponent field all ones, mantissa zero. -/
def inf16 (s : Bit) : Half := join16 s (0b11111#5 ++ 0#10)
/-- Signed binary32 zero (R73). -/
def zero32 (s : Bit) : Word := join32 s 0#8 0#23
/-- Signed binary32 infinity (R76). -/
def inf32 (s : Bit) : Word := join32 s 0xFF#8 0#23
/-- The canonical NaN that NARROW outputs (R56). -/
def canonicalNaN16 : Half := 0xFE00#16
/-- The canonical NaN that WIDEN outputs (R77). -/
def canonicalNaN32 : Word := 0xFFC00000#32

/-! ### Classes (R32, R33) -/

/-- The five classes of patterns. -/
inductive FpClass where
  | zero
  | subnormal
  | normal
  | infinity
  | nan
deriving DecidableEq, Repr

/-- The class of a binary32 pattern (R32). -/
def class32 (a : Word) : FpClass :=
  if mag32 a = 0#31 then .zero
  else if exp32 a = 0#8 then .subnormal
  else if exp32 a = 255#8 then (if man32 a = 0#23 then .infinity else .nan)
  else .normal

/-- The class of a binary16 pattern (R33). -/
def class16 (h : Half) : FpClass :=
  if mag16 h = 0#15 then .zero
  else if exp16 h = 0#5 then .subnormal
  else if exp16 h = 31#5 then (if man16 h = 0#10 then .infinity else .nan)
  else .normal

/-- The mantissa MSB of a binary32 NaN: set in a quiet NaN, clear in a signalling one (R34). The block treats both
alike (R92). -/
def quietBit32 (a : Word) : Bit := a.extractLsb' 22 1
/-- The mantissa MSB of a binary16 NaN (R34). -/
def quietBit16 (h : Half) : Bit := h.extractLsb' 9 1

/-! ### Operand and result assembly (R37, R38) -/

/-- WIDEN's operand from the port: `h = a[15:0]`; `a[31:16]` is ignored (R17, R37). -/
def widenOperand (a : Word) : Half := a.extractLsb' 0 16
/-- NARROW's result on the port: `y = 0x0000 ++ Narrow(a)` (R16, R38). -/
def narrowResult (r : Half) : Word := 0#16 ++ r

end Sys2Proof.Machine
end

