-- ==== Sys2Proof/Machine/Narrow.lean ====
section
/-! DEFINITION. NARROW (40_narrow.md). `narrow` follows the pseudocode of R50, "the one authority for what NARROW
computes", branch by branch in the order of R52. -/

namespace Sys2Proof.Machine

/-- The rebiased exponent `ne = E - 127 + 15` (R57). -/
def rebiasNarrow (e : Nat) : Int := (e : Int) - 127 + 15

/-- `hm` of the underflow branch: the significand shifted right by `sh`, plus the bit just below the final
position; shifts of 25 and more give 0 (R59, R60). -/
def underflowMagnitude (sh sig : Nat) : Nat :=
  if 25 ≤ sh then 0 else (sig >>> sh) + ((sig >>> (sh - 1)) % 2)

/-- `t + r` of the normal branch: exponent and top ten mantissa bits, plus the round bit (R61). -/
def normalMagnitude (ne m : Nat) : Nat :=
  (ne * 2 ^ 10 + (m >>> 13)) + ((m >>> 12) % 2)

/-- NARROW on a binary32 normal, by the rebiased exponent (R57 to R61). -/
def narrowNormal (s : Bit) (ne : Int) (m : Nat) : Half :=
  if 31 ≤ ne then inf16 s
  else if ne ≤ 0 then
    join16 s (BitVec.ofNat 15 (underflowMagnitude (14 - ne).toNat (2 ^ 23 + m)))
  else join16 s (BitVec.ofNat 15 (normalMagnitude ne.toNat m))

/-- `Narrow` (R50): the binary16 pattern of a binary32 pattern. -/
def narrow (a : Word) : Half :=
  if mag32 a = 0#31 then zero16 (sign32 a)
  else if exp32 a = 0#8 then zero16 (sign32 a)
  else if exp32 a = 255#8 then
    if man32 a = 0#23 then inf16 (sign32 a) else canonicalNaN16
  else narrowNormal (sign32 a) (rebiasNarrow (exp32 a).toNat) (man32 a).toNat

/-- NARROW: the combined block drives `y` with `0x0000 ++ Narrow(a)` (R16, R38, R50); it writes no flag and raises
nothing (R50, R90, R91). -/
def execNarrow (a : Word) (s : State) : Host.Outcome State Fault Refusal :=
  .next (s.driveY (narrowResult (narrow a)))

end Sys2Proof.Machine
end

