-- ==== Sys2Proof/Machine/Widen.lean ====
section
/-! DEFINITION. WIDEN (41_widen.md). `widen` follows the pseudocode of R70, "the one authority for what WIDEN
computes", branch by branch in the order of R72. -/

namespace Sys2Proof.Machine

/-- The normalisation loop of R74 and R81: shift left until bit 10 is set, counting the shifts, within `fuel`
iterations. At least one shift is made. -/
def shiftCount : (fuel m : Nat) → Nat
  | 0, _ => 0
  | fuel + 1, m => if 2 ^ 10 ≤ m <<< 1 then 1 else 1 + shiftCount fuel (m <<< 1)

/-- `k`: the least `k >= 1` with `(M << k) >= 2^10`; at most 10 iterations are needed (R74, R81). -/
def normShift (m : Nat) : Nat := shiftCount 10 m

/-- WIDEN on a binary16 subnormal: exponent field `113 - k`, mantissa the ten bits after the leading 1 (R74;
90_conflicts.md C2). -/
def widenSubnormal (s : Bit) (m : Nat) : Word :=
  join32 s (BitVec.ofNat 8 (113 - normShift m)) (BitVec.ofNat 23 (((m <<< normShift m) % 2 ^ 10) <<< 13))

/-- WIDEN on a binary16 normal: exponent field `E - 15 + 127`, mantissa shifted left by 13 (R78). -/
def widenNormal (s : Bit) (e m : Nat) : Word :=
  join32 s (BitVec.ofInt 8 ((e : Int) - 15 + 127)) (BitVec.ofNat 23 (m <<< 13))

/-- `Widen` (R70): the binary32 pattern of a binary16 pattern. -/
def widen (h : Half) : Word :=
  if mag16 h = 0#15 then zero32 (sign16 h)
  else if exp16 h = 0#5 then widenSubnormal (sign16 h) (man16 h).toNat
  else if exp16 h = 31#5 then
    if man16 h = 0#10 then inf32 (sign16 h) else canonicalNaN32
  else widenNormal (sign16 h) (exp16 h).toNat (man16 h).toNat

/-- WIDEN: the combined block drives `y` with `Widen(h)` (R38, R70); the bits `x = a[31:16]` have no effect (R17),
no flag is written and nothing is raised (R70, R90, R91). -/
def execWiden (_x h : Half) (s : State) : Host.Outcome State Fault Refusal :=
  .next (s.driveY (widen h))

end Sys2Proof.Machine
end

