-- ==== Sys2Proof/Machine/Dispatch.lean ====
section
/-! DEFINITION. One arm per request: its meaning. -/

namespace Sys2Proof.Machine

/-- What a request does (R19): one direct call of its meaning. -/
def exec (i : Instr) (s : State) : Host.Outcome State Fault Refusal :=
  match i with
  | .narrow a => Sys2Proof.Machine.execNarrow a s
  | .widen x h => Sys2Proof.Machine.execWiden x h s

end Sys2Proof.Machine
end

