-- ==== Sys2Proof/Machine/Standalone.lean ====
section
/-! DEFINITION. The outputs of all three blocks as functions of their inputs (R13, R14): the combined block
ieee754_width_converter, and the standalone blocks fp32_to_fp16_converter and fp16_to_fp32_converter. -/

namespace Sys2Proof.Machine

/-- `y = (op == 0) ? zext_32(Narrow(a[31:0])) : Widen(a[15:0])` (R14). -/
def combinedOutput (op : Bit) (a : Word) : Word :=
  if op = 0#1 then narrowResult (narrow a) else widen (widenOperand a)

/-- The result of a request: the `y` of R14 (R19). -/
def result (i : Instr) : Word :=
  match i with
  | .narrow a => narrowResult (narrow a)
  | .widen _ h => widen h

/-- The standalone blocks drive their outputs: `f16_out = Narrow(f32_in)`, `f32_out = Widen(f16_in)` (R14). -/
def State.settleStandalone (s : State) : State :=
  { s with f16Out := narrow s.f32In, f32Out := widen s.f16In }

end Sys2Proof.Machine
end

