-- ==== Sys2Proof/Machine/Step.lean ====
section
/-! DEFINITION. One step: the request present on the combined block's input ports is carried out whole (R19), and
the standalone blocks' outputs follow their own inputs (R14). Nothing is fetched (R28). -/

namespace Sys2Proof.Machine

/-- One atomic step (R19): the request `op ++ a` on the ports is decoded and run, all outputs being a function of
the present inputs (R14). -/
def step (s : State) : Host.Outcome State Fault Refusal :=
  exec (decode s.requestWord) s.settleStandalone

/-- The host presents an opcode-table word of `nbits` bits, all higher bits being zero, as the next request
(log entry 7). DESIGN CHOICE, safe: the ports hold 33 bits (R13, R35), so of a number with bits above bit 32, which
is no request word and which `decodeNat` rejects, the low 33 bits are presented (log entry 15). -/
def State.withFetchWord (s : State) (nbits w : Nat) : State :=
  s.presentWord (BitVec.ofNat 33 (w % 2 ^ nbits))

end Sys2Proof.Machine
end

