-- ==== Sys2Proof/Machine/Assembler.lean ====
section
/-! DEFINITION. The assembler's written form of a request (R41). Text is a list of characters. -/

namespace Sys2Proof.Machine

/-- The request of an assembler line (R41): `WIDEN <h>` stands for `a[31:16] = 0`. -/
def assemble : AsmLine → Instr
  | .narrow a => .narrow a
  | .widenHalf h => .widen 0#16 h
  | .widenWord a => .widen (a.extractLsb' 16 16) (widenOperand a)

/-- The hex digit of a number below 16, printed with capital letters (log entry 9). -/
def hexDigit (n : Nat) : Char := (Nat.digitChar n).toUpper

/-- The number below 16 that a hex digit writes: the one printed as that digit, small letters being read as capitals
(log entry 9). -/
def hexValue (c : Char) : Option Nat := (List.range 16).find? fun n => hexDigit n == c.toUpper

/-- The number that hex digits write, the most significant first; none where a character is no digit. -/
def hexNumber (digits : List Char) : Option Nat :=
  digits.foldlM (fun high c => (hexValue c).map (16 * high + ·)) 0

/-- An operand is written `0x` and hex digits (R41): how many digits, and the number. -/
def parseOperand : List Char → Option (Nat × Nat)
  | '0' :: 'x' :: digits => (hexNumber digits).map fun n => (digits.length, n)
  | _ => none

/-- Mnemonics are case-insensitive (R41). -/
def isMnemonic (name word : List Char) : Bool := word.map Char.toUpper == name

/-- One line of assembler text: a mnemonic, one or more spaces, an operand of 8 digits, or of 4 in WIDEN (R41; log
entry 9). -/
def parseLine (line : List Char) : Option AsmLine :=
  let word := line.takeWhile (· != ' ')
  match parseOperand ((line.dropWhile (· != ' ')).dropWhile (· == ' ')) with
  | none => none
  | some (digits, n) =>
    if isMnemonic ['N', 'A', 'R', 'R', 'O', 'W'] word && digits == 8 then some (.narrow (BitVec.ofNat 32 n))
    else if isMnemonic ['W', 'I', 'D', 'E', 'N'] word && digits == 4 then some (.widenHalf (BitVec.ofNat 16 n))
    else if isMnemonic ['W', 'I', 'D', 'E', 'N'] word && digits == 8 then some (.widenWord (BitVec.ofNat 32 n))
    else none

/-- A number as `k` hex digits, the most significant first. -/
def hexDigits : (k n : Nat) → List Char
  | 0, _ => []
  | k + 1, n => hexDigits k (n / 16) ++ [hexDigit (n % 16)]

/-- The text of an assembler line (R41). -/
def printLine : AsmLine → List Char
  | .narrow a => ['N', 'A', 'R', 'R', 'O', 'W', ' ', '0', 'x'] ++ hexDigits 8 a.toNat
  | .widenHalf h => ['W', 'I', 'D', 'E', 'N', ' ', '0', 'x'] ++ hexDigits 4 h.toNat
  | .widenWord a => ['W', 'I', 'D', 'E', 'N', ' ', '0', 'x'] ++ hexDigits 8 a.toNat

end Sys2Proof.Machine
end

