-- ==== Sys2Proof/Machine/Value.lean ====
section
/-! DEFINITION. The values of patterns (R34) and rounding to nearest, which claims about the conversions speak of.
No conversion uses them. PRESUMED: the value formula and IEEE ties-to-even are the spec's general knowledge, not its
source's (93_implementation_defined.md section 3; log entry 10). -/

namespace Sys2Proof.Machine

/-- `(-1)^s` -/
def signFactor (s : Bit) : ℚ := if s = 0#1 then 1 else -1

/-- R34's formula for a pattern with bias `bias` and mantissa width `p`: the normal value, and the value of a zero
or subnormal. -/
def fpValue (bias : ℤ) (p : ℕ) (s : Bit) (e m : ℕ) : ℚ :=
  if e = 0 then signFactor s * 2 ^ (1 - bias) * (m / 2 ^ p)
  else signFactor s * 2 ^ ((e : ℤ) - bias) * (1 + m / 2 ^ p)

/-- The value of a binary32 pattern; infinities and NaNs have none (R34). -/
def value32 (a : Word) : Option ℚ :=
  if exp32 a = 255#8 then none else some (fpValue 127 23 (sign32 a) (exp32 a).toNat (man32 a).toNat)

/-- The value of a binary16 pattern; infinities and NaNs have none (R34). -/
def value16 (h : Half) : Option ℚ :=
  if exp16 h = 31#5 then none else some (fpValue 15 10 (sign16 h) (exp16 h).toNat (man16 h).toNat)

/-- `g` is a finite binary16 pattern nearest to `v` and, of two nearest values, one of the larger magnitude (R62). -/
def NearestTiesAway (v : ℚ) (g : Half) : Prop :=
  ∃ w, value16 g = some w ∧
    ∀ g' u, value16 g' = some u → |w - v| ≤ |u - v| ∧ (|u - v| = |w - v| → |u| ≤ |w|)

/-- `g` is a finite binary16 pattern nearest to `v` and, where another value is as near, its last mantissa bit is 0
(ties to even, R63). -/
def NearestTiesEven (v : ℚ) (g : Half) : Prop :=
  ∃ w, value16 g = some w ∧
    ∀ g' u, value16 g' = some u → |w - v| ≤ |u - v| ∧ (|u - v| = |w - v| → u ≠ w → g.toNat % 2 = 0)

/-- `g` is the IEEE round-to-nearest-even conversion of the non-NaN pattern `a` (R63): the sign of `a`, an infinity
for an infinity and for magnitudes of 65520 and more, else the nearest value with ties to even. -/
def IeeeNarrow (a : Word) (g : Half) : Prop :=
  sign16 g = sign32 a ∧
    match value32 a with
    | none => g = inf16 (sign32 a)
    | some v => if 65520 ≤ |v| then g = inf16 (sign32 a) else NearestTiesEven v g

/-- The significand of a binary32 normal, the implicit leading 1 put back (R59). -/
def significand32 (a : Word) : Nat := 2 ^ 23 + (man32 a).toNat

/-- How many low bits of the significand narrowing discards: 13 in the normal range (R61), `126 - E` below it
(R59). -/
def discardedBits (a : Word) : Nat := if 113 ≤ (exp32 a).toNat then 13 else 126 - (exp32 a).toNat

/-- The magnitude bits before rounding: the retained bits, with the exponent field put in (R59, R61). -/
def truncatedMagnitude (a : Word) : Nat :=
  ((exp32 a).toNat - 113) * 2 ^ 10 + significand32 a / 2 ^ discardedBits a

/-- The discarded bits as a number; as a fraction of one unit in the last retained place they are R62's `d`. -/
def discardedPart (a : Word) : Nat := significand32 a % 2 ^ discardedBits a

/-- A tie whose even neighbour is the smaller-magnitude one (R63): exactly half a unit is discarded and the
truncated magnitude is even. -/
def TieEvenBelow (a : Word) : Prop :=
  102 ≤ (exp32 a).toNat ∧ (exp32 a).toNat ≤ 142 ∧
    2 * discardedPart a = 2 ^ discardedBits a ∧ truncatedMagnitude a % 2 = 0

end Sys2Proof.Machine
end

