-- ==== Sys2Proof/Machine/Driver.lean ====
section
/-! DEFINITION. The host's side of the interface: presenting requests one after another (R19, R106), several
instances of the block (R98), the calling conventions (R42) and the host statement `vD <- OP vS` (R41). Nothing
here is state of the block. -/

namespace Sys2Proof.Machine

/-- The host presents a request and the block carries it out (R19). -/
def serve (i : Instr) (s : State) : Host.Outcome State Fault Refusal := step (s.present i)

/-- A run: a finite sequence of requests, and the sequence of results the host reads (R106). -/
def runRequests : List Instr → State → Host.Outcome (State × List Word) Fault Refusal
  | [], s => .next (s, [])
  | i :: rest, s =>
    match serve i s with
    | .next t =>
      match runRequests rest t with
      | .next (u, ys) => .next (u, t.y :: ys)
      | .fault r => .fault r
      | .refused r => .refused r
    | .fault r => .fault r
    | .refused r => .refused r

/-- A run of a platform with several instances of the block (R98): each request names the instance it is presented
to. It has no answer when a request names an instance the platform does not have. -/
def runPlatform : List (Nat × Instr) → List State → Option (List State × List Word)
  | [], ps => some (ps, [])
  | (k, i) :: rest, ps =>
    match ps[k]? with
    | none => none
    | some s =>
      match serve i s with
      | .next t => (runPlatform rest (ps.set k t)).map fun r => (r.1, t.y :: r.2)
      | .fault _ => none
      | .refused _ => none

/-- The request a calling convention expands to, the same for both (R42). -/
def expandPseudo : PseudoForm → Instr
  | .narrow _ x => .narrow x
  | .widen _ h => .widen 0#16 h

/-- What the host stores of `y` afterwards: `y[15:0]` for narrow, `y` for widen (R42). -/
def storedPseudo (p : PseudoForm) (y : Word) : Stored :=
  match p with
  | .narrow _ _ => .half (y.extractLsb' 0 16)
  | .widen _ _ => .word y

/-- The host's variables `v0, v1, ...` (95_test_vectors.md section 5), by number; at most one entry each. -/
abbrev HostVars := List (Nat × Word)

/-- Storing into a host variable. -/
def setVar (n : Nat) (v : Word) (vars : HostVars) : HostVars :=
  (n, v) :: vars.filter fun p => p.1 != n

/-- `vD <- OP vS`: "The host presents the value of `vS` as `a` and stores `y` into `vD`" (R41). It has no answer
when `vS` holds no value (log entry 12). -/
def runStmt (c : HostStmt) (vars : HostVars) (s : State) : Option (HostVars × State) :=
  match vars.lookup c.src with
  | none => none
  | some v =>
    match step (s.presentWord (joinRequest c.op v)) with
    | .next t => some (setVar c.dst t.y vars, t)
    | .fault _ => none
    | .refused _ => none

end Sys2Proof.Machine
end

