-- ==== Sys2Proof/Safety.lean ====
section
/-! DEFINITION. What claims about runs speak of. -/

namespace Sys2Proof.Machine

/-- The outputs are the function of the present inputs that R14 gives, for all three blocks. -/
def State.Settled (s : State) : Prop :=
  s.y = combinedOutput s.op s.a ∧ s.f16Out = narrow s.f32In ∧ s.f32Out = widen s.f16In

/-- A run is safe when it completes with a result for every request: nothing faults, sticks or is refused (R19,
R29). -/
def SafeRun (requests : List Instr) (s : State) : Prop :=
  ∃ t ys, runRequests requests s = .next (t, ys) ∧ ys.length = requests.length

end Sys2Proof.Machine
end

