-- ==== Sys2Proof/Certificates/Slice0/Obligations.lean ====
section
/-! DEFINITION. The statements for the provers, in the order of spec/'s rules. -/

open Sys2Proof Sys2Proof.Machine

/-! ### Request words (R35 to R40) -/

/-- Decoding the word of a request gives the request back, with every operand bit. -/
def Obligations.DecodeOfEncodeIsTheRequest : Prop :=
  ∀ i : Instr, i.wf = true ∧ decode (encode i) = i

/-- Every request word is the word of the request it decodes to: no two words share a meaning (R35, R39). -/
def Obligations.EncodeOfDecodeIsTheWord : Prop :=
  ∀ w : ReqWord, encode (decode w) = w

/-- R40, with R36 and R37: bit 32 alone tells the operation, and the operand bits are taken as they stand. -/
def Obligations.OperationIsToldByBit32Alone : Prop :=
  (∀ a : Word, decode (joinRequest 0#1 a) = .narrow a) ∧
  (∀ a : Word, decode (joinRequest 1#1 a) = .widen (a.extractLsb' 16 16) (a.extractLsb' 0 16)) ∧
  (∀ w w' : ReqWord, w.getLsbD 32 = w'.getLsbD 32 → (decode w).mnemonic = (decode w').mnemonic)

/-- R39: every one of the 2^33 request words decodes to a legal request and a step carries it out. The second half
is the model's choice (log entry 6): a longer number is rejected by name. -/
def Obligations.EveryRequestWordDecodesAndRuns : Prop :=
  (∀ w : Nat, w < 2 ^ 33 →
    ∃ i, decodeNat w = .request i ∧ i.wf = true ∧ (encode i).toNat = w ∧
      ∀ s : State, ∃ t, step (s.presentWord (BitVec.ofNat 33 w)) = .next t ∧ t.y = result i) ∧
  (∀ w : Nat, 2 ^ 33 ≤ w → decodeNat w = .rejected .notARequestWord)

/-- 30_encoding.md section 3: each word lies under exactly one row of the opcode map, the row of its request. -/
def Obligations.OpcodeRowsPartitionTheWords : Prop :=
  ∀ w : ReqWord, ∃ r ∈ opcodeRows, r.covers w = true ∧ r.mnemonic = (decode w).mnemonic ∧
    ∀ r' ∈ opcodeRows, r'.covers w = true → r' = r

/-- Words written out from the encoding of R35: NARROW of 1.5, WIDEN of 1.5, and WIDEN with ignored bits. -/
def Obligations.SampleWordsDecode : Prop :=
  decode 0b000111111110000000000000000000000#33 = .narrow 0x3FC00000#32 ∧
  decode 0b100000000000000000011111000000000#33 = .widen 0x0000#16 0x3E00#16 ∧
  decode 0b111011110101011010011110000000000#33 = .widen 0xDEAD#16 0x3C00#16

/-! ### Steps, ports and state (R10 to R19, R24, R90, R100) -/

/-- A step runs the decoded request of the word on the ports, on the state in which the standalone blocks' outputs
follow their own inputs. That one step does both, and reads the request where the host left it, is the model's choice
(log entries 4 and 5). -/
def Obligations.StepRunsTheRequestOnThePorts : Prop :=
  ∀ s : State, step s =
    exec (decode (s.op ++ s.a)) { s with f16Out := narrow s.f32In, f32Out := widen s.f16In }

/-- A request that the host presents is the request that the next step runs. That presenting it changes the ports
`op` and `a` alone is the model's choice (log entry 7), and so is that the standalone outputs follow their inputs, as
R14 gives them, in the same step (log entry 5). -/
def Obligations.PresentedRequestIsRun : Prop :=
  ∀ (s : State) (i : Instr), ∃ (op : Bit) (a : Word), encode i = op ++ a ∧
    s.present i = { s with op := op, a := a } ∧
    step (s.present i) =
      exec i { s with op := op, a := a, f16Out := narrow s.f32In, f32Out := widen s.f16In }

/-- R14: the outputs of the three blocks are functions of the present inputs only. -/
def Obligations.OutputsAreFunctionsOfTheInputs : Prop :=
  ∀ s : State, ∃ t, step s = .next t ∧
    t.y = (if s.op = 0#1 then (narrow s.a).setWidth 32 else widen (s.a.extractLsb' 0 16)) ∧
    t.f16Out = narrow s.f32In ∧ t.f32Out = widen s.f16In

/-- R90: no request faults, sticks or is refused, and there is no fault to raise. -/
def Obligations.NoRequestFaultsOrIsRefused : Prop :=
  (∀ (i : Instr) (s : State), ∃ t, exec i s = .next t) ∧
  (∀ s : State, ∃ t, step s = .next t) ∧ (Fault → False)

/-- From every state whose outputs are settled, a step gives a state whose outputs are settled. -/
def Obligations.StepKeepsOutputsSettled : Prop :=
  ∀ s t : State, s.Settled → step s = .next t → t.Settled

/-- After reset the outputs are the function R14 gives of the inputs (R100). That the inputs are zeros then is the
model's choice (log entry 2). -/
def Obligations.ResetOutputsAreSettled : Prop :=
  State.reset.Settled

/-- R100, R10, R12: the block's own state has one value, and nothing a state holds but the present inputs reaches a
step's answer. -/
def Obligations.NothingButTheInputsReachesAStep : Prop :=
  (∀ s s' : State, s.block = s'.block) ∧
  (∀ s s' : State, s.op = s'.op → s.a = s'.a → s.f32In = s'.f32In → s.f16In = s'.f16In → step s = step s')

/-- R18, R2: each output depends on its own block's inputs alone, whatever was requested before and whatever the
other blocks do. -/
def Obligations.EachOutputDependsOnItsOwnInputs : Prop :=
  ∀ s s' t t' : State, step s = .next t → step s' = .next t' →
    (s.op = s'.op → s.a = s'.a → t.y = t'.y) ∧
    (s.f32In = s'.f32In → t.f16Out = t'.f16Out) ∧
    (s.f16In = s'.f16In → t.f32Out = t'.f32Out)

/-- R24: a request changes no state of the block; making it again changes nothing. The state after it is given
whole: that the input ports stay as presented and that the standalone outputs follow their inputs, as R14 gives them,
in the same step are the model's choices (log entries 4 and 5). -/
def Obligations.RequestsHaveNoSideEffectAndAreIdempotent : Prop :=
  ∀ (i : Instr) (s : State), ∃ t, serve i s = .next t ∧
    t = { s with op := opField (encode i), a := operandField (encode i), y := result i,
                 f16Out := narrow s.f32In, f32Out := widen s.f16In } ∧
    t.block = s.block ∧ serve i t = .next t

/-- R19: a request is the pair of `op` and `a`, its result is the `y` of R14, and one step returns it. -/
def Obligations.OneStepReturnsTheResultOfTheRequest : Prop :=
  ∀ (i : Instr) (s : State), ∃ (op : Bit) (a : Word), encode i = op ++ a ∧
    ∃ t, serve i s = .next t ∧ t.y = result i ∧
      result i = (if op = 0#1 then (narrow a).setWidth 32 else widen (a.extractLsb' 0 16))

/-- R16: with `op = 0` the combined block drives `y[15:0] = Narrow(a)` and `y[31:16] = 0`. -/
def Obligations.NarrowRequestDrivesBothHalvesOfY : Prop :=
  ∀ s : State, s.op = 0#1 → ∃ t, step s = .next t ∧
    t.y.extractLsb' 0 16 = narrow s.a ∧ t.y.extractLsb' 16 16 = 0#16

/-- R17: with `op = 1` any value of `a[31:16]` is legal and has no effect on `y`. -/
def Obligations.WidenIgnoresTheUpperOperandBits : Prop :=
  ∀ (s : State) (x : Half), s.op = 1#1 →
    ∃ t t', step s = .next t ∧ step { s with a := x ++ s.a.extractLsb' 0 16 } = .next t' ∧
      t.y = widen (s.a.extractLsb' 0 16) ∧ t'.y = t.y

/-- Both requests complete in every state, with the result R38 assembles. That `y` alone changes is the model's choice:
the input ports are left as they are (log entry 4), and `exec` does not touch the standalone blocks' outputs (log
entry 5). -/
def Obligations.RequestsCompleteWithTheAssembledResult : Prop :=
  ∀ (s : State) (a : Word) (x h : Half),
    exec (.narrow a) s = .next { s with y := 0x0000#16 ++ narrow a } ∧
    exec (.widen x h) s = .next { s with y := widen h }

/-- The frame of NARROW and WIDEN: of all the state, a request changes `y` alone (R24). That the input ports are
left as they are is the model's choice (log entry 4). -/
def Obligations.RequestsChangeYAlone : Prop :=
  ∀ (i : Instr) (s t : State), exec i s = .next t →
    t.block = s.block ∧ t.op = s.op ∧ t.a = s.a ∧
    t.f32In = s.f32In ∧ t.f16Out = s.f16Out ∧ t.f16In = s.f16In ∧ t.f32Out = s.f32Out

/-! ### Formats (R30 to R33) -/

/-- R30: the fields of a binary32 pattern, bit by bit. -/
def Obligations.Binary32FieldsAreWhereTheLayoutPutsThem : Prop :=
  ∀ a : Word, (sign32 a).getLsbD 0 = a.getLsbD 31 ∧
    (∀ i, i < 8 → (exp32 a).getLsbD i = a.getLsbD (23 + i)) ∧
    (∀ i, i < 23 → (man32 a).getLsbD i = a.getLsbD i)

/-- R31: the fields of a binary16 pattern, bit by bit. -/
def Obligations.Binary16FieldsAreWhereTheLayoutPutsThem : Prop :=
  ∀ h : Half, (sign16 h).getLsbD 0 = h.getLsbD 15 ∧
    (∀ i, i < 5 → (exp16 h).getLsbD i = h.getLsbD (10 + i)) ∧
    (∀ i, i < 10 → (man16 h).getLsbD i = h.getLsbD i)

/-- R32: the five binary32 classes, by fields and by ranges of the 31 magnitude bits. As each pattern has one class,
the conditions are disjoint and cover all patterns. -/
def Obligations.Binary32ClassesAreTheTabledRanges : Prop :=
  ∀ a : Word,
    (class32 a = .zero ↔ a.extractLsb' 0 31 = 0#31) ∧
    (class32 a = .subnormal ↔ exp32 a = 0#8 ∧ man32 a ≠ 0#23) ∧
    (class32 a = .normal ↔ 1 ≤ (exp32 a).toNat ∧ (exp32 a).toNat ≤ 254) ∧
    (class32 a = .infinity ↔ exp32 a = 255#8 ∧ man32 a = 0#23) ∧
    (class32 a = .nan ↔ exp32 a = 255#8 ∧ man32 a ≠ 0#23) ∧
    (class32 a = .subnormal ↔ 0x00000001 ≤ (mag32 a).toNat ∧ (mag32 a).toNat ≤ 0x007FFFFF) ∧
    (class32 a = .normal ↔ 0x00800000 ≤ (mag32 a).toNat ∧ (mag32 a).toNat ≤ 0x7F7FFFFF) ∧
    (class32 a = .infinity ↔ (mag32 a).toNat = 0x7F800000) ∧
    (class32 a = .nan ↔ 0x7F800001 ≤ (mag32 a).toNat ∧ (mag32 a).toNat ≤ 0x7FFFFFFF)

/-- R33: the five binary16 classes, by fields and by ranges of the 15 magnitude bits. -/
def Obligations.Binary16ClassesAreTheTabledRanges : Prop :=
  ∀ h : Half,
    (class16 h = .zero ↔ h.extractLsb' 0 15 = 0#15) ∧
    (class16 h = .subnormal ↔ exp16 h = 0#5 ∧ man16 h ≠ 0#10) ∧
    (class16 h = .normal ↔ 1 ≤ (exp16 h).toNat ∧ (exp16 h).toNat ≤ 30) ∧
    (class16 h = .infinity ↔ exp16 h = 31#5 ∧ man16 h = 0#10) ∧
    (class16 h = .nan ↔ exp16 h = 31#5 ∧ man16 h ≠ 0#10) ∧
    (class16 h = .subnormal ↔ 0x0001 ≤ (mag16 h).toNat ∧ (mag16 h).toNat ≤ 0x03FF) ∧
    (class16 h = .normal ↔ 0x0400 ≤ (mag16 h).toNat ∧ (mag16 h).toNat ≤ 0x7BFF) ∧
    (class16 h = .infinity ↔ (mag16 h).toNat = 0x7C00) ∧
    (class16 h = .nan ↔ 0x7C01 ≤ (mag16 h).toNat ∧ (mag16 h).toNat ≤ 0x7FFF)

/-! ### NARROW, branch by branch (R53 to R61) -/

/-- R53: a zero gives the zero of its sign. -/
def Obligations.NarrowKeepsSignedZero : Prop :=
  (∀ (a : Word) (s : State), a.extractLsb' 0 31 = 0#31 →
    exec (.narrow a) s = .next { s with y := 0#16 ++ (a.extractLsb' 31 1 ++ 0#15) }) ∧
  narrow 0x00000000#32 = 0x0000#16 ∧ narrow 0x80000000#32 = 0x8000#16

/-- R54: a binary32 subnormal gives the zero of its sign, its own magnitude lying below 2^-126 (by R34's value
formula, log entry 10). -/
def Obligations.NarrowFlushesSubnormals : Prop :=
  ∀ (a : Word) (s : State), exp32 a = 0#8 → man32 a ≠ 0#23 →
    exec (.narrow a) s = .next { s with y := 0#16 ++ (sign32 a ++ 0#15) } ∧
    ∃ v, value32 a = some v ∧ |v| < 2 ^ (-126 : ℤ)

/-- R55: an infinity gives the infinity of its sign. -/
def Obligations.NarrowKeepsSignedInfinity : Prop :=
  (∀ (a : Word) (s : State), exp32 a = 255#8 → man32 a = 0#23 →
    exec (.narrow a) s = .next { s with y := 0#16 ++ (sign32 a ++ (0b11111#5 ++ 0#10)) }) ∧
  narrow 0x7F800000#32 = 0x7C00#16 ∧ narrow 0xFF800000#32 = 0xFC00#16

/-- R56: every NaN, whatever its sign, payload or mantissa MSB, gives 0xFE00: sign 1, exponent field all ones, of
the mantissa only the MSB set. -/
def Obligations.NarrowCollapsesEveryNaN : Prop :=
  (∀ (a : Word) (s : State), exp32 a = 255#8 → man32 a ≠ 0#23 →
    exec (.narrow a) s = .next { s with y := 0#16 ++ 0xFE00#16 }) ∧
  sign16 0xFE00#16 = 1#1 ∧ exp16 0xFE00#16 = 0b11111#5 ∧ man16 0xFE00#16 = 0x200#10

/-- R57: the rebiased exponent is `E - 112`, from -111 to 142 where it is reached; a 9-bit two's-complement number
holds it. -/
def Obligations.RebiasedExponentAndItsRange : Prop :=
  ∀ e : Nat, 1 ≤ e → e ≤ 254 →
    rebiasNarrow e = (e : Int) - 112 ∧ -111 ≤ rebiasNarrow e ∧ rebiasNarrow e ≤ 142 ∧
    (BitVec.ofInt 9 (rebiasNarrow e)).toInt = rebiasNarrow e

/-- R58: a rebiased exponent of 31 or more overflows to signed infinity, whatever the mantissa; that is `E >= 143`,
or a magnitude of at least 65536. -/
def Obligations.NarrowOverflowsToSignedInfinity : Prop :=
  (∀ (a : Word) (s : State), class32 a = .normal → 31 ≤ rebiasNarrow (exp32 a).toNat →
    exec (.narrow a) s = .next { s with y := 0#16 ++ (sign32 a ++ (0b11111#5 ++ 0#10)) }) ∧
  (∀ a : Word, class32 a = .normal →
    (31 ≤ rebiasNarrow (exp32 a).toNat ↔ 143 ≤ (exp32 a).toNat) ∧
    ∃ v, value32 a = some v ∧ (143 ≤ (exp32 a).toNat ↔ 65536 ≤ |v|)) ∧
  narrow 0x7149F2CA#32 = 0x7C00#16 ∧ narrow 0xF149F2CA#32 = 0xFC00#16

/-- R59: the underflow range `ne <= 0`, the rule's value `hm` and its bounds. -/
def Obligations.NarrowUnderflowsWithRounding : Prop :=
  (∀ (a : Word) (s : State), 1 ≤ (exp32 a).toNat → (exp32 a).toNat ≤ 112 →
    ∃ sh sig hm : Nat, (sh : Int) = 14 - rebiasNarrow (exp32 a).toNat ∧ sh = 126 - (exp32 a).toNat ∧
      14 ≤ sh ∧ sh ≤ 125 ∧ sig = 2 ^ 23 + (man32 a).toNat ∧ sig < 2 ^ 24 ∧
      exec (.narrow a) s = .next { s with y := 0#16 ++ (sign32 a ++ BitVec.ofNat 15 hm) } ∧
      (25 ≤ sh → hm = 0) ∧
      (sh ≤ 24 → hm = sig / 2 ^ sh + (if sig.testBit (sh - 1) then 1 else 0) ∧ 1 ≤ hm ∧ hm ≤ 1024 ∧
        (hm = 1024 ↔ sh = 14 ∧ 2 ^ 24 - 2 ^ 13 ≤ sig) ∧
        (exp16 (narrow a)).toNat = (if hm = 1024 then 1 else 0)) ∧
      (sh = 24 → hm = 1)) ∧
  narrow 0x33800000#32 = 0x0001#16 ∧ narrow 0x33000000#32 = 0x0001#16 ∧ narrow 0x32800000#32 = 0x0000#16

/-- R60: from a shift of 25 on, the clamp gives what the unclamped formula gives, and the result is signed zero. -/
def Obligations.UnderflowClampAgreesWithTheFormula : Prop :=
  (∀ sh sig : Nat, 25 ≤ sh → sig < 2 ^ 24 →
    underflowMagnitude sh sig = sig / 2 ^ sh + (if sig.testBit (sh - 1) then 1 else 0)) ∧
  (∀ (a : Word) (s : State), 1 ≤ (exp32 a).toNat → (exp32 a).toNat ≤ 101 →
    exec (.narrow a) s = .next { s with y := 0#16 ++ (sign32 a ++ 0#15) })

/-- R61: the normal range. The truncated magnitude is the rebiased exponent above the top ten mantissa bits; bit 12
increments the 15 magnitude bits, which is the same as incrementing the whole 16-bit value. -/
def Obligations.NarrowRoundsTheNormalRangeOnBit12 : Prop :=
  ∀ (a : Word) (s : State), 113 ≤ (exp32 a).toNat → (exp32 a).toNat ≤ 142 →
    ∃ (ne : BitVec 5) (t : BitVec 15), (ne.toNat : Int) = rebiasNarrow (exp32 a).toNat ∧
      t = ne ++ a.extractLsb' 13 10 ∧ 0x0400 ≤ t.toNat ∧ t.toNat ≤ 0x7BFF ∧
      exec (.narrow a) s = .next { s with y := 0#16 ++ (sign32 a ++ (t + (a.extractLsb' 12 1).setWidth 15)) } ∧
      t.toNat + (a.extractLsb' 12 1).toNat ≤ 0x7C00 ∧
      (t.toNat + (a.extractLsb' 12 1).toNat = 0x7C00 ↔
        ne.toNat = 30 ∧ a.extractLsb' 13 10 = 0x3FF#10 ∧ a.extractLsb' 12 1 = 1#1) ∧
      narrow a = (sign32 a ++ t) + (a.extractLsb' 12 1).setWidth 16

/-! ### NARROW as a whole (R62 to R64) -/

/-- R62: a finite value of magnitude below 65520 narrows to the nearest binary16 value, at a tie to the one of
larger magnitude; from 65520 on the result is signed infinity. The values are those of R34 (log entry 10). -/
def Obligations.NarrowRoundsToNearestTiesAway : Prop :=
  ∀ (a : Word) (v : ℚ), value32 a = some v →
    (|v| < 65520 → NearestTiesAway v (narrow a)) ∧ (65520 ≤ |v| → narrow a = inf16 (sign32 a)) ∧
    sign16 (narrow a) = sign32 a

/-- R62: the result rounds up in magnitude exactly when the discarded fraction is at least one half. -/
def Obligations.NarrowRoundsUpExactlyFromOneHalf : Prop :=
  ∀ a : Word, 102 ≤ (exp32 a).toNat → (exp32 a).toNat ≤ 142 →
    (mag16 (narrow a)).toNat =
      truncatedMagnitude a + (if 2 ^ discardedBits a ≤ 2 * discardedPart a then 1 else 0)

/-- R63: NARROW is the IEEE round-to-nearest-even conversion except at ties whose even neighbour is the one of
smaller magnitude, where it gives one more in the 15 magnitude bits. PRESUMED: what the IEEE conversion is, by
values and their nearest neighbours, is general knowledge (log entry 10). -/
def Obligations.NarrowDepartsFromIeeeAtTiesAboveEvenAlone : Prop :=
  ∀ (a : Word) (g : Half), class32 a ≠ .nan → IeeeNarrow a g →
    (¬ TieEvenBelow a → narrow a = g) ∧
    (TieEvenBelow a → sign16 (narrow a) = sign16 g ∧ (mag16 (narrow a)).toNat = (mag16 g).toNat + 1)

/-- R64: which inputs give a NaN, an infinity or a zero, and that the sign is kept. -/
def Obligations.NarrowResultClasses : Prop :=
  ∀ a : Word,
    (class16 (narrow a) = .nan ↔ class32 a = .nan) ∧
    (class32 a = .nan → narrow a = 0xFE00#16) ∧
    (class32 a ≠ .nan → (narrow a).getLsbD 15 = a.getLsbD 31) ∧
    (class32 a ≠ .nan → (class16 (narrow a) = .infinity ↔
      class32 a = .infinity ∨ 143 ≤ (exp32 a).toNat ∨
        ((exp32 a).toNat = 142 ∧ 0x7FF000 ≤ (man32 a).toNat))) ∧
    (class16 (narrow a) = .zero ↔ (mag32 a).toNat ≤ 0x32FFFFFF)

/-- NARROW never reverses the order of magnitudes (a consequence of R62). -/
def Obligations.NarrowIsMonotoneInMagnitude : Prop :=
  ∀ a b : Word, class32 b ≠ .nan → (mag32 a).toNat ≤ (mag32 b).toNat →
    (mag16 (narrow a)).toNat ≤ (mag16 (narrow b)).toNat

/-! ### WIDEN, branch by branch (R73 to R78, R81) -/

/-- R73: a zero gives the zero of its sign. -/
def Obligations.WidenKeepsSignedZero : Prop :=
  (∀ (x h : Half) (s : State), h.extractLsb' 0 15 = 0#15 →
    exec (.widen x h) s = .next { s with y := h.extractLsb' 15 1 ++ 0#31 }) ∧
  widen 0x0000#16 = 0x00000000#32 ∧ widen 0x8000#16 = 0x80000000#32

/-- R74: a subnormal is normalised by `k` shifts, the least `k >= 1` that sets bit 10 of `M << k`; the exponent
field is `113 - k` and the mantissa the ten bits after the leading 1, shifted left by 13. -/
def Obligations.WidenNormalisesSubnormals : Prop :=
  (∀ (x h : Half) (s : State), exp16 h = 0#5 → man16 h ≠ 0#10 →
    ∃ (k : Nat) (r : Word), 1 ≤ k ∧ k ≤ 10 ∧ ((man16 h).toNat * 2 ^ k).testBit 10 = true ∧
      (∀ j, 1 ≤ j → j < k → ((man16 h).toNat * 2 ^ j).testBit 10 = false) ∧
      k = 10 - Nat.log2 (man16 h).toNat ∧ 103 ≤ 113 - k ∧ 113 - k ≤ 112 ∧
      r = sign16 h ++ (BitVec.ofNat 8 (113 - k) ++ BitVec.ofNat 23 ((man16 h).toNat * 2 ^ k % 2 ^ 10 * 2 ^ 13)) ∧
      exec (.widen x h) s = .next { s with y := r }) ∧
  widen 0x0001#16 = 0x33800000#32

/-- R75: the ten rows of the subnormal table: the range of `M`, floor(log2 M), `k`, `e32` and the range of the
result's magnitude bits. -/
def Obligations.WidenSubnormalTable : Prop :=
  ∀ row ∈ ([(0x200, 0x3FF, 9, 1, 112, 0x38000000, 0x387FC000),
            (0x100, 0x1FF, 8, 2, 111, 0x37800000, 0x37FF8000),
            (0x080, 0x0FF, 7, 3, 110, 0x37000000, 0x377F0000),
            (0x040, 0x07F, 6, 4, 109, 0x36800000, 0x36FE0000),
            (0x020, 0x03F, 5, 5, 108, 0x36000000, 0x367C0000),
            (0x010, 0x01F, 4, 6, 107, 0x35800000, 0x35F80000),
            (0x008, 0x00F, 3, 7, 106, 0x35000000, 0x35700000),
            (0x004, 0x007, 2, 8, 105, 0x34800000, 0x34E00000),
            (0x002, 0x003, 1, 9, 104, 0x34000000, 0x34400000),
            (0x001, 0x001, 0, 10, 103, 0x33800000, 0x33800000)] :
              List (Nat × Nat × Nat × Nat × Nat × Nat × Nat)),
    match row with
    | (lo, hi, log, k, e32, first, last) =>
      ∀ h : Half, exp16 h = 0#5 → lo ≤ (man16 h).toNat → (man16 h).toNat ≤ hi →
        Nat.log2 (man16 h).toNat = log ∧ normShift (man16 h).toNat = k ∧ (exp32 (widen h)).toNat = e32 ∧
        first ≤ (mag32 (widen h)).toNat ∧ (mag32 (widen h)).toNat ≤ last ∧ sign32 (widen h) = sign16 h

/-- R76: an infinity gives the infinity of its sign. -/
def Obligations.WidenKeepsSignedInfinity : Prop :=
  (∀ (x h : Half) (s : State), exp16 h = 31#5 → man16 h = 0#10 →
    exec (.widen x h) s = .next { s with y := sign16 h ++ (0xFF#8 ++ 0#23) }) ∧
  widen 0x7C00#16 = 0x7F800000#32 ∧ widen 0xFC00#16 = 0xFF800000#32

/-- R77: every NaN gives 0xFFC00000: sign 1, exponent field all ones, of the mantissa only the MSB set. -/
def Obligations.WidenCollapsesEveryNaN : Prop :=
  (∀ (x h : Half) (s : State), exp16 h = 31#5 → man16 h ≠ 0#10 →
    exec (.widen x h) s = .next { s with y := 0xFFC00000#32 }) ∧
  sign32 0xFFC00000#32 = 1#1 ∧ exp32 0xFFC00000#32 = 0xFF#8 ∧ man32 0xFFC00000#32 = 0x400000#23

/-- R78: a normal is rebiased to `E + 112`, from 113 to 142, its mantissa above 13 zero bits. -/
def Obligations.WidenRebiasesNormals : Prop :=
  ∀ (x h : Half) (s : State), 1 ≤ (exp16 h).toNat → (exp16 h).toNat ≤ 30 →
    ∃ e32 : BitVec 8, e32.toNat = (exp16 h).toNat + 112 ∧ 113 ≤ e32.toNat ∧ e32.toNat ≤ 142 ∧
      exec (.widen x h) s = .next { s with y := sign16 h ++ (e32 ++ (man16 h ++ 0#13)) }

/-- R81: the normalisation needs at most ten iterations: allowing more changes nothing. -/
def Obligations.NormalisationEndsWithinTenShifts : Prop :=
  ∀ m fuel : Nat, 1 ≤ m → m ≤ 1023 → 10 ≤ fuel →
    shiftCount fuel m = normShift m ∧ normShift m ≤ 10 ∧ 2 ^ 10 ≤ m * 2 ^ normShift m

/-! ### WIDEN as a whole, and the two together (R79, R80, R82, R92) -/

/-- R79: WIDEN is exact. The value of a non-NaN pattern is the value of what it widens to (R34; log entry 10), and
an infinity widens to an infinity. -/
def Obligations.WidenIsExact : Prop :=
  (∀ h : Half, class16 h ≠ .nan → value32 (widen h) = value16 h) ∧
  (∀ h : Half, class16 h = .infinity → class32 (widen h) = .infinity)

/-- R80: narrowing what was widened gives every non-NaN pattern back, and 0xFE00 for every NaN. -/
def Obligations.NarrowUndoesWiden : Prop :=
  ∀ h : Half, (class16 h ≠ .nan → narrow (widen h) = h) ∧ (class16 h = .nan → narrow (widen h) = 0xFE00#16)

/-- R80: widening what was narrowed gives back every non-NaN binary32 pattern whose value is a binary16 value (R34;
log entry 10), and every infinity (R55, R76). -/
def Obligations.WidenUndoesNarrowOnHalfValues : Prop :=
  (∀ (a : Word) (h : Half) (v : ℚ), value32 a = some v → value16 h = some v → widen (narrow a) = a) ∧
  (∀ a : Word, class32 a = .infinity → widen (narrow a) = a)

/-- Narrowing a second time changes nothing (95_test_vectors.md section 5, P4; a consequence of R80). -/
def Obligations.NarrowingAgainChangesNothing : Prop :=
  ∀ a : Word, narrow (widen (narrow a)) = narrow a

/-- R82: the classes of WIDEN's results, the sign kept, the result's exponent field, and its 13 low zero bits. -/
def Obligations.WidenResultClasses : Prop :=
  ∀ h : Half,
    (class32 (widen h) = .nan ↔ class16 h = .nan) ∧
    (class16 h = .nan → widen h = 0xFFC00000#32) ∧
    (class16 h ≠ .nan → (widen h).getLsbD 31 = h.getLsbD 15) ∧
    ((exp32 (widen h)).toNat = 0 ∨ (103 ≤ (exp32 (widen h)).toNat ∧ (exp32 (widen h)).toNat ≤ 142) ∨
      (exp32 (widen h)).toNat = 255) ∧
    ((exp32 (widen h)).toNat = 0 ↔ class32 (widen h) = .zero) ∧
    ((exp32 (widen h)).toNat = 255 ↔ class32 (widen h) = .infinity ∨ class32 (widen h) = .nan) ∧
    class32 (widen h) ≠ .subnormal ∧
    (widen h).extractLsb' 0 13 = 0#13

/-- R92: a signalling NaN (mantissa MSB clear, R34) gives what any other NaN gives, in both directions, and the step
goes on to a next state. -/
def Obligations.SignallingNaNsAreNotToldApart : Prop :=
  (∀ (s : State) (a b : Word), class32 a = .nan → class32 b = .nan → quietBit32 a = 0#1 →
    exec (.narrow a) s = exec (.narrow b) s ∧ ∃ t, exec (.narrow a) s = .next t) ∧
  (∀ (s : State) (x h g : Half), class16 h = .nan → class16 g = .nan → quietBit16 h = 0#1 →
    exec (.widen x h) s = exec (.widen x g) s ∧ ∃ t, exec (.widen x h) s = .next t)

/-! ### Runs (R27, R98, R103, R106) and the host's forms (R41, R42) -/

/-- R106: a run of any requests, from any state, completes, and its observation is the sequence of their results. -/
def Obligations.RunGivesEveryRequestItsResult : Prop :=
  ∀ (requests : List Instr) (s : State),
    SafeRun requests s ∧ ∃ t, runRequests requests s = .next (t, requests.map result)

/-- R27, R98: whatever the order of the requests and whichever instances they are presented to, each gets the result
it would get alone; an instance that gets no request is left as it was. -/
def Obligations.ResultsDoNotDependOnOrderOrInstance : Prop :=
  ∀ (requests : List (Nat × Instr)) (instances : List State),
    (∀ p ∈ requests, p.1 < instances.length) →
    ∃ after, runPlatform requests instances = some (after, requests.map fun p => result p.2) ∧
      after.length = instances.length ∧
      ∀ k, (∀ p ∈ requests, p.1 ≠ k) → after[k]? = instances[k]?

/-- R103: a request may follow another at once, in either direction, with the first one's result as its operand. -/
def Obligations.RequestsFollowEachOtherAtOnce : Prop :=
  (∀ (a : Word) (s : State), ∃ t u, serve (.narrow a) s = .next t ∧
    serve (.widen (t.y.extractLsb' 16 16) (t.y.extractLsb' 0 16)) t = .next u ∧ u.y = widen (narrow a)) ∧
  (∀ (x h : Half) (s : State), ∃ t u, serve (.widen x h) s = .next t ∧
    serve (.narrow t.y) t = .next u ∧ u.y = 0#16 ++ narrow (widen h))

/-- R41: the host statement `vD <- OP vS` presents the value of `vS` as `a` and stores `y` into `vD`; the other host
variables keep their values, and without a value in `vS` there is no answer (log entry 12). -/
def Obligations.HostStatementStoresTheResult : Prop :=
  (∀ (c : HostStmt) (vars : HostVars) (s : State) (v : Word), vars.lookup c.src = some v →
    ∃ vars' t, runStmt c vars s = some (vars', t) ∧
      vars'.lookup c.dst = some (if c.op = 0#1 then 0#16 ++ narrow v else widen (v.extractLsb' 0 16)) ∧
      ∀ n, n ≠ c.dst → vars'.lookup n = vars.lookup n) ∧
  (∀ (c : HostStmt) (vars : HostVars) (s : State), vars.lookup c.src = none → runStmt c vars s = none)

/-- R41: the written form of every assembler line is read back as that line (spacing and letter case by log
entry 9). -/
def Obligations.PrintedLinesParseBack : Prop :=
  ∀ l : AsmLine, parseLine (printLine l) = some l

/-- R41: the words of the three assembler lines; `WIDEN <h>` has `a[31:16] = 0`. -/
def Obligations.AssembledLinesHaveTheirWords : Prop :=
  (∀ a : Word, encode (assemble (.narrow a)) = 0#1 ++ a) ∧
  (∀ h : Half, encode (assemble (.widenHalf h)) = 1#1 ++ (0#16 ++ h)) ∧
  (∀ a : Word, encode (assemble (.widenWord a)) = 1#1 ++ a)

/-- R42: both calling conventions expand to the same request, after which the host stores `y[15:0]` for a narrowing;
the same holds for widening, where it stores `y`. -/
def Obligations.CallingConventionsAreTheSameRequest : Prop :=
  (∀ (c : CallingConvention) (x : Word) (s : State), expandPseudo (.narrow c x) = .narrow x ∧
    ∃ t, serve (expandPseudo (.narrow c x)) s = .next t ∧
      storedPseudo (.narrow c x) t.y = .half (t.y.extractLsb' 0 16) ∧ t.y.extractLsb' 0 16 = narrow x) ∧
  (∀ (c : CallingConvention) (h : Half) (s : State), expandPseudo (.widen c h) = .widen 0#16 h ∧
    ∃ t, serve (expandPseudo (.widen c h)) s = .next t ∧
      storedPseudo (.widen c h) t.y = .word (widen h))
end

