-- ==== Sys2Proof/Laws/Assembler.lean ====
section
/-! SUPPORT. Hex digits are read back as they are printed. -/

namespace Sys2Proof.Machine

/-- A printed digit is read as its number. -/
theorem hexValue_hexDigit {n : Nat} (h : n < 16) : hexValue (hexDigit n) = some n := by
  have all : ∀ k : Fin 16, hexValue (hexDigit k) = some k.val := by decide
  exact all ⟨n, h⟩

/-- One more digit on the right multiplies what stands before by 16. -/
theorem hexNumber_concat (digits : List Char) (c : Char) :
    hexNumber (digits ++ [c]) =
      (hexNumber digits).bind fun high => (hexValue c).map (16 * high + ·) := by
  simp [hexNumber, List.foldlM_append]

/-- As many digits are printed as are asked for. -/
@[simp] theorem hexDigits_length (k n : Nat) : (hexDigits k n).length = k := by
  induction k generalizing n with
  | zero => rfl
  | succ k ih => simp [hexDigits, ih]

end Sys2Proof.Machine
end

