-- ==== Sys2Proof/Laws/Operands.lean ====
section
/-! SUPPORT. Fields and patterns as numbers: the lemmas that take the formats down to arithmetic. -/

namespace Sys2Proof.Machine

/-! ### Fields as numbers -/

theorem sign32_toNat (a : Word) : (sign32 a).toNat = a.toNat / 2 ^ 31 := by
  have := a.isLt
  simp only [sign32, BitVec.extractLsb'_toNat, Nat.shiftRight_eq_div_pow]
  omega

theorem exp32_toNat (a : Word) : (exp32 a).toNat = a.toNat / 2 ^ 23 % 2 ^ 8 := by
  simp [exp32, BitVec.extractLsb'_toNat, Nat.shiftRight_eq_div_pow]

theorem man32_toNat (a : Word) : (man32 a).toNat = a.toNat % 2 ^ 23 := by
  simp [man32, BitVec.extractLsb'_toNat]

theorem mag32_toNat (a : Word) : (mag32 a).toNat = a.toNat % 2 ^ 31 := by
  simp [mag32, BitVec.extractLsb'_toNat]

theorem sign16_toNat (h : Half) : (sign16 h).toNat = h.toNat / 2 ^ 15 := by
  have := h.isLt
  simp only [sign16, BitVec.extractLsb'_toNat, Nat.shiftRight_eq_div_pow]
  omega

theorem exp16_toNat (h : Half) : (exp16 h).toNat = h.toNat / 2 ^ 10 % 2 ^ 5 := by
  simp [exp16, BitVec.extractLsb'_toNat, Nat.shiftRight_eq_div_pow]

theorem man16_toNat (h : Half) : (man16 h).toNat = h.toNat % 2 ^ 10 := by
  simp [man16, BitVec.extractLsb'_toNat]

theorem mag16_toNat (h : Half) : (mag16 h).toNat = h.toNat % 2 ^ 15 := by
  simp [mag16, BitVec.extractLsb'_toNat]

/-- The magnitude bits of a binary32 pattern are its exponent field above its mantissa field. -/
theorem mag32_eq_fields (a : Word) : (mag32 a).toNat = (exp32 a).toNat * 2 ^ 23 + (man32 a).toNat := by
  rw [mag32_toNat, exp32_toNat, man32_toNat]
  omega

/-- The magnitude bits of a binary16 pattern are its exponent field above its mantissa field. -/
theorem mag16_eq_fields (h : Half) : (mag16 h).toNat = (exp16 h).toNat * 2 ^ 10 + (man16 h).toNat := by
  rw [mag16_toNat, exp16_toNat, man16_toNat]
  omega

/-! ### Assembled patterns -/

theorem join16_toNat (s : Bit) (m : BitVec 15) : (join16 s m).toNat = s.toNat * 2 ^ 15 + m.toNat := by
  simp only [join16, BitVec.toNat_append]
  rw [← Nat.shiftLeft_add_eq_or_of_lt m.isLt, Nat.shiftLeft_eq]

theorem join32_toNat (s : Bit) (e : BitVec 8) (f : BitVec 23) :
    (join32 s e f).toNat = s.toNat * 2 ^ 31 + (e.toNat * 2 ^ 23 + f.toNat) := by
  have hf := f.isLt
  have he := e.isLt
  have h1 : (e ++ f).toNat = e.toNat * 2 ^ 23 + f.toNat := by
    rw [BitVec.toNat_append, ← Nat.shiftLeft_add_eq_or_of_lt hf, Nat.shiftLeft_eq]
  rw [join32, BitVec.toNat_append, ← Nat.shiftLeft_add_eq_or_of_lt (e ++ f).isLt, Nat.shiftLeft_eq, h1]

@[simp] theorem sign16_join16 (s : Bit) (m : BitVec 15) : sign16 (join16 s m) = s := by
  have := m.isLt
  apply BitVec.eq_of_toNat_eq
  rw [sign16_toNat, join16_toNat]
  omega

@[simp] theorem mag16_join16 (s : Bit) (m : BitVec 15) : mag16 (join16 s m) = m := by
  have := m.isLt
  apply BitVec.eq_of_toNat_eq
  rw [mag16_toNat, join16_toNat]
  omega

@[simp] theorem sign32_join32 (s : Bit) (e : BitVec 8) (f : BitVec 23) : sign32 (join32 s e f) = s := by
  have := e.isLt
  have := f.isLt
  apply BitVec.eq_of_toNat_eq
  rw [sign32_toNat, join32_toNat]
  omega

@[simp] theorem exp32_join32 (s : Bit) (e : BitVec 8) (f : BitVec 23) : exp32 (join32 s e f) = e := by
  have := e.isLt
  have := f.isLt
  apply BitVec.eq_of_toNat_eq
  rw [exp32_toNat, join32_toNat]
  omega

@[simp] theorem man32_join32 (s : Bit) (e : BitVec 8) (f : BitVec 23) : man32 (join32 s e f) = f := by
  have := f.isLt
  apply BitVec.eq_of_toNat_eq
  rw [man32_toNat, join32_toNat]
  omega

/-! ### The two magnitude functions of NARROW -/

/-- Within the shifts that leave a bit, the underflow magnitude is the rounded quotient in terms of division. -/
theorem underflowMagnitude_of_lt {sh sig : Nat} (h : sh < 25) :
    underflowMagnitude sh sig = sig / 2 ^ sh + sig / 2 ^ (sh - 1) % 2 := by
  simp [underflowMagnitude, Nat.not_le.mpr h, Nat.shiftRight_eq_div_pow]

/-- From a shift of 25 on, the underflow magnitude is 0 (the clamp). -/
theorem underflowMagnitude_of_le {sh sig : Nat} (h : 25 ≤ sh) : underflowMagnitude sh sig = 0 := by
  simp [underflowMagnitude, h]

/-- The normal magnitude in terms of division. -/
theorem normalMagnitude_eq (ne m : Nat) :
    normalMagnitude ne m = ne * 2 ^ 10 + m / 2 ^ 13 + m / 2 ^ 12 % 2 := by
  simp [normalMagnitude, Nat.shiftRight_eq_div_pow]

end Sys2Proof.Machine
end

