-- ==== Sys2Proof/Laws/State.lean ====
section
/-! SUPPORT. What each operation on ports leaves in each field, so that no proof unfolds a record update. -/

namespace Sys2Proof.Machine.State

variable (s : State) (v : Word) (w : ReqWord)

@[simp] theorem driveY_block : (s.driveY v).block = s.block := rfl
@[simp] theorem driveY_op : (s.driveY v).op = s.op := rfl
@[simp] theorem driveY_a : (s.driveY v).a = s.a := rfl
@[simp] theorem driveY_y : (s.driveY v).y = v := rfl
@[simp] theorem driveY_f32In : (s.driveY v).f32In = s.f32In := rfl
@[simp] theorem driveY_f16Out : (s.driveY v).f16Out = s.f16Out := rfl
@[simp] theorem driveY_f16In : (s.driveY v).f16In = s.f16In := rfl
@[simp] theorem driveY_f32Out : (s.driveY v).f32Out = s.f32Out := rfl

@[simp] theorem presentWord_block : (s.presentWord w).block = s.block := rfl
@[simp] theorem presentWord_op : (s.presentWord w).op = opField w := rfl
@[simp] theorem presentWord_a : (s.presentWord w).a = operandField w := rfl
@[simp] theorem presentWord_y : (s.presentWord w).y = s.y := rfl
@[simp] theorem presentWord_f32In : (s.presentWord w).f32In = s.f32In := rfl
@[simp] theorem presentWord_f16Out : (s.presentWord w).f16Out = s.f16Out := rfl
@[simp] theorem presentWord_f16In : (s.presentWord w).f16In = s.f16In := rfl
@[simp] theorem presentWord_f32Out : (s.presentWord w).f32Out = s.f32Out := rfl

@[simp] theorem settleStandalone_block : s.settleStandalone.block = s.block := rfl
@[simp] theorem settleStandalone_op : s.settleStandalone.op = s.op := rfl
@[simp] theorem settleStandalone_a : s.settleStandalone.a = s.a := rfl
@[simp] theorem settleStandalone_y : s.settleStandalone.y = s.y := rfl
@[simp] theorem settleStandalone_f32In : s.settleStandalone.f32In = s.f32In := rfl
@[simp] theorem settleStandalone_f16Out : s.settleStandalone.f16Out = narrow s.f32In := rfl
@[simp] theorem settleStandalone_f16In : s.settleStandalone.f16In = s.f16In := rfl
@[simp] theorem settleStandalone_f32Out : s.settleStandalone.f32Out = widen s.f16In := rfl

/-- Presenting a request is presenting its word. -/
theorem present_eq (i : Instr) : s.present i = s.presentWord (encode i) := rfl

end Sys2Proof.Machine.State
end

