-- ==== Sys2Proof/Laws/Ops.lean ====
section
/-! SUPPORT. Once for each shared operation and for the step: everything it can do. -/

namespace Sys2Proof

/-- A request word as a number. -/
theorem joinRequest_toNat (op : Bit) (a : Word) : (joinRequest op a).toNat = op.toNat * 2 ^ 32 + a.toNat := by
  rw [joinRequest, BitVec.toNat_append, ← Nat.shiftLeft_add_eq_or_of_lt a.isLt, Nat.shiftLeft_eq]

/-- A 32-bit operand as a number, from its halves. -/
theorem joinHalves_toNat (x h : Half) : (joinHalves x h).toNat = x.toNat * 2 ^ 16 + h.toNat := by
  rw [joinHalves, BitVec.toNat_append, ← Nat.shiftLeft_add_eq_or_of_lt h.isLt, Nat.shiftLeft_eq]

@[simp] theorem opField_joinRequest (op : Bit) (a : Word) : opField (joinRequest op a) = op := by
  have := a.isLt
  have := op.isLt
  apply BitVec.eq_of_toNat_eq
  simp only [opField, BitVec.extractLsb'_toNat, Nat.shiftRight_eq_div_pow, joinRequest_toNat]
  omega

@[simp] theorem operandField_joinRequest (op : Bit) (a : Word) : operandField (joinRequest op a) = a := by
  have := a.isLt
  apply BitVec.eq_of_toNat_eq
  simp only [operandField, BitVec.extractLsb'_toNat, Nat.shiftRight_zero, joinRequest_toNat]
  omega

/-- The operation select and the operand of a request word, put together again. -/
@[simp] theorem joinRequest_fields (w : ReqWord) : joinRequest (opField w) (operandField w) = w := by
  have := w.isLt
  apply BitVec.eq_of_toNat_eq
  simp only [joinRequest_toNat, opField, operandField, BitVec.extractLsb'_toNat, Nat.shiftRight_eq_div_pow]
  omega

/-- The don't-care bits of a WIDEN word are the upper half of its operand. -/
theorem ignoredField_eq (w : ReqWord) : ignoredField w = (operandField w).extractLsb' 16 16 := by
  have := w.isLt
  apply BitVec.eq_of_toNat_eq
  simp only [ignoredField, operandField, BitVec.extractLsb'_toNat, Nat.shiftRight_eq_div_pow]
  omega

/-- The binary16 operand of a WIDEN word is the lower half of its operand. -/
theorem halfField_eq (w : ReqWord) : halfField w = (operandField w).extractLsb' 0 16 := by
  apply BitVec.eq_of_toNat_eq
  simp only [halfField, operandField, BitVec.extractLsb'_toNat, Nat.shiftRight_zero]
  omega

namespace Machine

/-- The word that was presented is the word on the ports. -/
@[simp] theorem requestWord_presentWord (s : State) (w : ReqWord) : (s.presentWord w).requestWord = w :=
  joinRequest_fields w

/-- All that a request can do: it answers a next state, in which only `y` may differ, and `y` is its result. -/
theorem exec_eq (i : Instr) (s : State) : exec i s = .next (s.driveY (result i)) := by
  cases i <;> rfl

/-- The inversion of `exec`. -/
theorem exec_next {i : Instr} {s t : State} (h : exec i s = .next t) : t = s.driveY (result i) := by
  rw [exec_eq] at h
  exact (Host.Outcome.next.inj h).symm

/-- All that a step can do: the standalone outputs follow their inputs and `y` is the result of the request on the
ports. -/
theorem step_eq (s : State) :
    step s = .next (s.settleStandalone.driveY (result (decode s.requestWord))) := exec_eq _ _

/-- The inversion of `step`. -/
theorem step_next {s t : State} (h : step s = .next t) :
    t = s.settleStandalone.driveY (result (decode s.requestWord)) := exec_next h

end Machine

end Sys2Proof
end

