-- ==== Sys2Proof/Laws/PerInstr.lean ====
section
/-! SUPPORT. Facts stated of every request and proved one constructor at a time. -/

namespace Sys2Proof.Laws.OpSelect

/-- The request is legal, and the row of the opcode map under its mnemonic covers its word. -/
def Statement (i : Instr) : Prop :=
  i.wf = true ∧ ∃ r ∈ opcodeRows, r.mnemonic = i.mnemonic ∧ r.covers (encode i) = true

/-- A word under a mask of bit 32 alone keeps its operation select and loses its operand. -/
theorem masked_word (op : Bit) (a : Word) : joinRequest op a &&& 0x100000000#33 = joinRequest op 0#32 := by
  apply BitVec.eq_of_getLsbD_eq
  intro i hi
  simp only [joinRequest, BitVec.getLsbD_and, BitVec.getLsbD_append]
  by_cases h : i < 32
  · have low : ∀ j : Fin 32, (0x100000000#33).getLsbD j = false := by decide
    simp [h, low ⟨i, h⟩]
  · obtain rfl : i = 32 := by omega
    simp

theorem narrow (a : Word) : Statement (.narrow a) := by
  refine ⟨rfl, ⟨"NARROW", 0x000000000#33, 0x100000000#33⟩, by simp [opcodeRows], rfl, ?_⟩
  simp only [OpcodeRow.covers, encode, masked_word]
  decide

theorem widen (x h : Half) : Statement (.widen x h) := by
  refine ⟨rfl, ⟨"WIDEN", 0x100000000#33, 0x100000000#33⟩, by simp [opcodeRows], rfl, ?_⟩
  simp only [OpcodeRow.covers, encode, masked_word]
  decide

end Sys2Proof.Laws.OpSelect
end

