-- ==== Sys2Proof/Laws/Value.lean ====
section
/-! SUPPORT. Values of patterns as whole numbers of the format's smallest unit, so that claims about them are claims
about whole numbers. -/

namespace Sys2Proof.Machine

/-- The value of a finite binary32 pattern, from its fields. -/
theorem value32_of_fields {a : Word} {s : Bit} {e m : ℕ} (hs : sign32 a = s) (he : (exp32 a).toNat = e)
    (hm : (man32 a).toNat = m) (finite : e ≠ 255) : value32 a = some (fpValue 127 23 s e m) := by
  have ne : exp32 a ≠ 255#8 := fun h => finite (by rw [← he, h]; rfl)
  rw [value32, if_neg ne, hs, he, hm]

/-- The value of a finite binary16 pattern, from its fields. -/
theorem value16_of_fields {h : Half} {s : Bit} {e m : ℕ} (hs : sign16 h = s) (he : (exp16 h).toNat = e)
    (hm : (man16 h).toNat = m) (finite : e ≠ 31) : value16 h = some (fpValue 15 10 s e m) := by
  have ne : exp16 h ≠ 31#5 := fun h' => finite (by rw [← he, h']; rfl)
  rw [value16, if_neg ne, hs, he, hm]

/-- The magnitude of a finite pattern in units of the format's smallest subnormal. -/
def magnitudeUnits (p e m : ℕ) : ℕ := if e = 0 then m else (2 ^ p + m) * 2 ^ (e - 1)

/-- R34's formula in units of the smallest subnormal, `2^(1 - bias - p)`. -/
theorem fpValue_eq_units (bias : ℤ) (p : ℕ) (s : Bit) (e m : ℕ) :
    fpValue bias p s e m = signFactor s * magnitudeUnits p e m * 2 ^ (1 - bias - (p : ℤ)) := by
  have two : (2 : ℚ) ≠ 0 := two_ne_zero
  have unit : (2 : ℚ) ^ (1 - bias - (p : ℤ)) = 2 ^ (1 - bias) / 2 ^ p := by
    rw [zpow_sub₀ two, zpow_natCast]
  rcases Nat.eq_zero_or_pos e with rfl | he
  · simp only [fpValue, magnitudeUnits, if_pos, unit]
    ring
  · obtain ⟨k, rfl⟩ : ∃ k, e = k + 1 := ⟨e - 1, by omega⟩
    have grow : (2 : ℚ) ^ (((k + 1 : ℕ) : ℤ) - bias) = 2 ^ (1 - bias) * 2 ^ k := by
      rw [← zpow_natCast (2 : ℚ) k, ← zpow_add₀ two]
      congr 1
      push_cast
      ring
    simp only [fpValue, magnitudeUnits, Nat.succ_ne_zero, if_false, Nat.add_sub_cancel, unit, grow]
    push_cast
    field_simp

theorem signFactor_cases (s : Bit) : signFactor s = 1 ∨ signFactor s = -1 := by
  unfold signFactor
  split <;> simp

/-- The value of a finite binary16 pattern is a whole number of units of 2^-24. -/
theorem value16_isUnits {h : Half} {u : ℚ} (hu : value16 h = some u) : ∃ n : ℤ, u = n * 2 ^ (-24 : ℤ) := by
  unfold value16 at hu
  split at hu
  · cases hu
  · obtain rfl := Option.some.inj hu
    rw [fpValue_eq_units]
    rcases signFactor_cases (sign16 h) with hs | hs
    · exact ⟨magnitudeUnits 10 (exp16 h).toNat (man16 h).toNat, by rw [hs]; norm_num⟩
    · exact ⟨-magnitudeUnits 10 (exp16 h).toNat (man16 h).toNat, by rw [hs]; norm_num⟩

end Sys2Proof.Machine
end

