-- ==== Sys2Proof/Tests/Slice0.lean ====
section
/-! SUPPORT. Checks of the model against the spec's own examples and tables, and for each statement with hypotheses
states and operands that meet them, at the ends of the ranges it speaks of. -/

namespace Sys2Proof.Tests

open Sys2Proof.Machine

/-- The next state of an outcome, where there is one. -/
def nextOf : Host.Outcome State Fault Refusal → Option State
  | .next t => some t
  | .fault _ => none
  | .refused _ => none

/-- The result port after presenting a request word to the machine in its reset state, and one step. -/
def yAfter (w : Nat) : Option Word := (nextOf (step (State.reset.withFetchWord 40 w))).map (·.y)

/-! ### Well-formedness and decoding -/

/-- R35: a number with a bit above bit 32 is no request word. -/
theorem test_isRequestWord_refuses_34_bits : isRequestWord 0x200000000 = false := by decide
theorem test_isRequestWord_takes_33_bits : isRequestWord 0x1FFFFFFFF = true := by decide
theorem test_decodeNat_rejects_by_name : decodeNat 0x200000000 = .rejected .notARequestWord := by decide

/-- R35, R36: op 0 above the operand 0x3FC00000, bit by bit. -/
theorem test_decode_narrow_word :
    decode 0b0_0011_1111_1100_0000_0000_0000_0000_0000#33 = .narrow 0x3FC00000#32 := by decide
/-- R35, R37: op 1, the ignored half 0xDEAD, the operand 0x3C00, bit by bit. -/
theorem test_decode_widen_word :
    decode 0b1_1101_1110_1010_1101_0011_1100_0000_0000#33 = .widen 0xDEAD#16 0x3C00#16 := by decide
theorem test_obligation_sample_words :
    0b000111111110000000000000000000000#33 = 0x03FC00000#33 ∧
    0b100000000000000000011111000000000#33 = 0x100003E00#33 ∧
    0b111011110101011010011110000000000#33 = 0x1DEAD3C00#33 := by decide
theorem test_decodeTableWord :
    decodeTableWord 40 0x03FC00000 = some (.narrow 0x3FC00000#32) ∧
    decodeTableWord 33 0x1DEAD3C00 = some (.widen 0xDEAD#16 0x3C00#16) := by decide
/-- 95_test_vectors.md section 5, P1: the words of its two requests. -/
theorem test_encode_P1 :
    encode (.narrow 0x3FC00000#32) = 0x03FC00000#33 ∧ encode (.widen 0#16 0x3E00#16) = 0x100003E00#33 := by decide

/-! ### Requests, one step each (95_test_vectors.md sections 2 and 3) -/

/-- R16: the zero-filled result of NARROW 1.5. -/
theorem test_step_narrow_zero_fill : yAfter 0x03FC00000 = some 0x00003E00#32 := by decide
/-- R17: the ignored operand bits of WIDEN. -/
theorem test_step_widen_ignored_bits : yAfter 0x1DEAD3C00 = some 0x3F800000#32 := by decide

/-- The branches of R50: ties, carries, the clamp, the overflow threshold, NaN. -/
theorem test_narrow_vectors :
    narrow 0x3F801000#32 = 0x3C01#16 ∧ narrow 0x3F800FFF#32 = 0x3C00#16 ∧ narrow 0xC0500000#32 = 0xC280#16 ∧
    narrow 0x477FF000#32 = 0x7C00#16 ∧ narrow 0x477FEFFF#32 = 0x7BFF#16 ∧ narrow 0xC77FF000#32 = 0xFC00#16 ∧
    narrow 0x387FFFFF#32 = 0x0400#16 ∧ narrow 0x34400000#32 = 0x0003#16 ∧ narrow 0xB3000000#32 = 0x8001#16 ∧
    narrow 0x32FFFFFF#32 = 0x0000#16 ∧ narrow 0x807FFFFF#32 = 0x8000#16 ∧ narrow 0x7F800001#32 = 0xFE00#16 ∧
    narrow 0x3DCCCCCD#32 = 0x2E66#16 ∧ narrow 0x7F7FFFFF#32 = 0x7C00#16 := by decide

/-- The branches of R70. -/
theorem test_widen_vectors :
    widen 0x0001#16 = 0x33800000#32 ∧ widen 0x8001#16 = 0xB3800000#32 ∧ widen 0x0155#16 = 0x37AA8000#32 ∧
    widen 0x03FF#16 = 0x387FC000#32 ∧ widen 0x0201#16 = 0x38004000#32 ∧ widen 0x0400#16 = 0x38800000#32 ∧
    widen 0x3555#16 = 0x3EAAA000#32 ∧ widen 0xC280#16 = 0xC0500000#32 ∧ widen 0xFBFF#16 = 0xC77FE000#32 ∧
    widen 0xFC00#16 = 0xFF800000#32 ∧ widen 0x7C01#16 = 0xFFC00000#32 ∧ widen 0x8000#16 = 0x80000000#32 := by decide

/-- R14: the standalone blocks' outputs follow their own inputs in the same step. -/
theorem test_step_standalone :
    (nextOf (step { State.reset with f32In := 0x3FC00000#32, f16In := 0xC280#16 })).map
      (fun t => (t.y, t.f16Out, t.f32Out)) = some (0#32, 0x3E00#16, 0xC0500000#32) := by decide

/-- R41: lower-case mnemonics and digits, and the 8-digit form of WIDEN. -/
theorem test_assembler :
    parseLine ['w', 'i', 'd', 'e', 'n', ' ', '0', 'x', '3', 'e', '0', '0'] = some (.widenHalf 0x3E00#16) ∧
    parseLine ['W', 'I', 'D', 'E', 'N', ' ', '0', 'x', 'D', 'E', 'A', 'D', '3', 'C', '0', '0'] =
      some (.widenWord 0xDEAD3C00#32) ∧
    parseLine ['N', 'A', 'R', 'R', 'O', 'W', ' ', '0', 'x', '3', 'E', '0', '0'] = none := by decide

/-! ### Witnesses: the hypotheses of the statements can be met -/

theorem witness_request_word_bounds : (0x1FFFFFFFF : Nat) < 2 ^ 33 ∧ 2 ^ 33 ≤ (0x200000000 : Nat) := by decide
theorem witness_bit32 : (0x100003E00#33).getLsbD 32 = (0x1FFFFFFFF#33).getLsbD 32 ∧
    (0x000003E00#33).getLsbD 32 = (0x0FFFFFFFF#33).getLsbD 32 := by decide
theorem witness_opcode_rows : ∃ r ∈ opcodeRows, r.covers 0x1FFFFFFFF#33 = true := by decide
theorem witness_settled_step : State.reset.Settled ∧ step State.reset = .next State.reset :=
  ⟨⟨by decide, by decide, by decide⟩, rfl⟩
theorem witness_settled_widen_step :
    ({ State.reset with op := 1#1, a := 0x3E00#32, y := 0x3FC00000#32 } : State).Settled ∧
    nextOf (step { State.reset with op := 1#1, a := 0x3E00#32, y := 0x3FC00000#32 }) ≠ none :=
  ⟨⟨by decide, by decide, by decide⟩, by decide⟩
/-- Two states with the same inputs and different outputs. -/
theorem witness_same_inputs :
    let s := { State.reset with y := 0xFFFFFFFF#32, f16Out := 0xFFFF#16 }
    s ≠ State.reset ∧ s.op = State.reset.op ∧ s.a = State.reset.a ∧ s.f32In = State.reset.f32In ∧
      s.f16In = State.reset.f16In ∧ nextOf (step s) = some State.reset ∧
      nextOf (step State.reset) = some State.reset := by decide
theorem witness_narrow_on_ports : State.reset.op = 0#1 ∧ (State.reset.withFetchWord 40 0x0FFFFFFFF).op = 0#1 := by decide
theorem witness_widen_on_ports : (State.reset.withFetchWord 40 0x1DEAD3C00).op = 1#1 := by decide
theorem witness_exec_answers :
    nextOf (exec (.narrow 0x3FC00000#32) State.reset) = some { State.reset with y := 0x3E00#32 } ∧
    nextOf (exec (.widen 0#16 0x3E00#16) State.reset) = some { State.reset with y := 0x3FC00000#32 } := by decide

theorem witness_zeros :
    (0x80000000#32).extractLsb' 0 31 = 0#31 ∧ (0x8000#16).extractLsb' 0 15 = 0#15 := by decide
theorem witness_subnormals32 :
    exp32 0x00000001#32 = 0#8 ∧ man32 0x00000001#32 ≠ 0#23 ∧ exp32 0x807FFFFF#32 = 0#8 ∧
      man32 0x807FFFFF#32 ≠ 0#23 := by decide
theorem witness_infinities :
    exp32 0xFF800000#32 = 255#8 ∧ man32 0xFF800000#32 = 0#23 ∧ exp16 0xFC00#16 = 31#5 ∧
      man16 0xFC00#16 = 0#10 ∧ class16 0xFC00#16 = .infinity ∧ class32 0xFF800000#32 = .infinity := by decide
theorem witness_nans :
    exp32 0x7F800001#32 = 255#8 ∧ man32 0x7F800001#32 ≠ 0#23 ∧ exp16 0x7C01#16 = 31#5 ∧
      man16 0x7C01#16 ≠ 0#10 := by decide
/-- A signalling and a quiet NaN of each format. -/
theorem witness_signalling_nans :
    class32 0x7F800001#32 = .nan ∧ quietBit32 0x7F800001#32 = 0#1 ∧ class32 0xFFC00000#32 = .nan ∧
    class16 0x7C01#16 = .nan ∧ quietBit16 0x7C01#16 = 0#1 ∧ class16 0xFE00#16 = .nan := by decide
theorem witness_rebias_bounds : 1 ≤ (1 : Nat) ∧ (254 : Nat) ≤ 254 ∧ rebiasNarrow 1 = -111 ∧ rebiasNarrow 254 = 142 := by
  decide
theorem witness_overflow :
    class32 0x47800000#32 = .normal ∧ 31 ≤ rebiasNarrow (exp32 0x47800000#32).toNat ∧
    class32 0xFF7FFFFF#32 = .normal ∧ 31 ≤ rebiasNarrow (exp32 0xFF7FFFFF#32).toNat := by decide
/-- Exponents 1, 101, 102 and 112: shifts 125, 25, 24 and 14. -/
theorem witness_underflow :
    (exp32 0x00800000#32).toNat = 1 ∧ (exp32 0x32FFFFFF#32).toNat = 101 ∧ (exp32 0x33000000#32).toNat = 102 ∧
    (exp32 0x387FFFFF#32).toNat = 112 ∧ (25 : Nat) ≤ 126 - 101 ∧ (126 - 102 : Nat) = 24 ∧
    (16777215 : Nat) < 2 ^ 24 := by decide
theorem witness_normal_range :
    (exp32 0x38800000#32).toNat = 113 ∧ (exp32 0x477FF000#32).toNat = 142 ∧
    (exp16 0x0400#16).toNat = 1 ∧ (exp16 0x7BFF#16).toNat = 30 := by decide
theorem witness_monotone :
    class32 0x7F800000#32 ≠ .nan ∧ (mag32 0x3F800000#32).toNat ≤ (mag32 0x7F800000#32).toNat := by decide
theorem witness_subnormals16 :
    exp16 0x0001#16 = 0#5 ∧ man16 0x0001#16 ≠ 0#10 ∧ exp16 0x83FF#16 = 0#5 ∧ man16 0x83FF#16 ≠ 0#10 := by decide
/-- Both ends of every row of R75. -/
theorem witness_subnormal_rows :
    ∀ m ∈ ([0x200, 0x3FF, 0x100, 0x1FF, 0x080, 0x0FF, 0x040, 0x07F, 0x020, 0x03F, 0x010, 0x01F, 0x008, 0x00F,
        0x004, 0x007, 0x002, 0x003, 0x001] : List Nat),
      exp16 (BitVec.ofNat 16 m) = 0#5 ∧ (man16 (BitVec.ofNat 16 m)).toNat = m := by decide
theorem witness_normalisation : normShift 1 = 10 ∧ normShift 1023 = 1 ∧ (1 : Nat) ≤ 1023 ∧ (10 : Nat) ≤ 10 := by decide
theorem witness_not_nan16 : class16 0x7BFF#16 ≠ .nan ∧ class16 0x7C00#16 ≠ .nan ∧ class16 0x7FFF#16 = .nan := by decide

/-- 1.5 in both formats, by R34. -/
theorem witness_common_value : value32 0x3FC00000#32 = some (3 / 2) ∧ value16 0x3E00#16 = some (3 / 2) := by
  constructor
  · rw [value32_of_fields (s := 0#1) (e := 127) (m := 0x400000) (by decide) (by decide) (by decide) (by decide)]
    norm_num [fpValue, signFactor]
  · rw [value16_of_fields (s := 0#1) (e := 15) (m := 0x200) (by decide) (by decide) (by decide) (by decide)]
    norm_num [fpValue, signFactor]

/-- 65520, the least magnitude that narrows to infinity, by R34. -/
theorem value_65520 : value32 0x477FF000#32 = some 65520 := by
  rw [value32_of_fields (s := 0#1) (e := 142) (m := 0x7FF000) (by decide) (by decide) (by decide) (by decide)]
  norm_num [fpValue, signFactor]

/-- 65520 - 2^-8, the largest binary32 value below 65520, by R34. -/
theorem value_below_65520 : value32 0x477FEFFF#32 = some (65520 - 1 / 256) := by
  rw [value32_of_fields (s := 0#1) (e := 142) (m := 0x7FEFFF) (by decide) (by decide) (by decide) (by decide)]
  norm_num [fpValue, signFactor]

/-- 2^-25, the tie between 0 and the smallest binary16 subnormal, by R34. -/
theorem value_tie_above_zero : value32 0x33000000#32 = some (1 / 2 ^ 25) := by
  rw [value32_of_fields (s := 0#1) (e := 102) (m := 0) (by decide) (by decide) (by decide) (by decide)]
  norm_num [fpValue, signFactor]

/-- R62's two clauses, on both sides of the bound. -/
theorem witness_nearest_and_overflow :
    (∃ v, value32 0x477FEFFF#32 = some v ∧ |v| < 65520) ∧ (∃ v, value32 0x477FF000#32 = some v ∧ 65520 ≤ |v|) :=
  ⟨⟨_, value_below_65520, by norm_num⟩, ⟨_, value_65520, by norm_num⟩⟩

/-- R63's first clause: 65520 is no tie above an even neighbour, and IEEE gives infinity. -/
theorem witness_ieee_without_tie :
    class32 0x477FF000#32 ≠ .nan ∧ IeeeNarrow 0x477FF000#32 0x7C00#16 ∧ ¬ TieEvenBelow 0x477FF000#32 := by
  refine ⟨by decide, ⟨by decide, ?_⟩, ?_⟩
  · rw [value_65520]
    simp only [show (65520 : ℚ) ≤ |65520| by norm_num, if_true]
    decide
  · rintro ⟨-, -, -, even⟩
    exact absurd even (by decide)

/-- R63's second clause: at 2^-25 IEEE gives 0, the even neighbour below. -/
theorem witness_ieee_at_tie :
    class32 0x33000000#32 ≠ .nan ∧ IeeeNarrow 0x33000000#32 0x0000#16 ∧ TieEvenBelow 0x33000000#32 := by
  refine ⟨by decide, ⟨by decide, ?_⟩, ⟨by decide, by decide, by decide, by decide⟩⟩
  have zero : value16 0x0000#16 = some 0 := by
    rw [value16_of_fields (s := 0#1) (e := 0) (m := 0) (by decide) (by decide) (by decide) (by decide)]
    norm_num [fpValue]
  rw [value_tie_above_zero]
  simp only [show ¬ (65520 : ℚ) ≤ |1 / 2 ^ 25| by norm_num, if_false]
  refine ⟨0, zero, fun g u hu => ⟨?_, fun _ _ => by decide⟩⟩
  obtain ⟨n, rfl⟩ := value16_isUnits hu
  have odd : (1 : ℚ) ≤ |((2 * n - 1 : ℤ) : ℚ)| := by
    rw [← Int.cast_abs]
    exact_mod_cast Int.one_le_abs (by omega)
  have scale : (n : ℚ) * 2 ^ (-24 : ℤ) - 1 / 2 ^ 25 = ((2 * n - 1 : ℤ) : ℚ) * (1 / 2 ^ 25) := by
    push_cast
    norm_num
    ring
  rw [scale, abs_mul]
  norm_num at odd ⊢
  linarith

theorem witness_platform :
    (∀ p ∈ [(0, Instr.narrow 0x3FC00000#32)], p.1 < [State.reset, State.reset].length) ∧
    (∀ p ∈ [(0, Instr.narrow 0x3FC00000#32)], p.1 ≠ 1) := by decide
theorem witness_host_variables :
    ([(0, 0x3FC00000#32)] : HostVars).lookup 0 = some 0x3FC00000#32 ∧
    ([(0, 0x3FC00000#32)] : HostVars).lookup 1 = none := by decide

end Sys2Proof.Tests
end

/-! PROOFS. What one step leaves on each output port (R14), and the scope statements (R2, R18, R98). -/

namespace Sys2Proof.Machine

/-- R14, R36: the result of the request that a word decodes to is the combined block's output for its fields. -/
theorem result_decode_joinRequest (op : Bit) (a : Word) :
    result (decode (joinRequest op a)) = combinedOutput op a := by
  by_cases narrowing : op = 0#1
  · simp [decode, result, combinedOutput, narrowing]
  · simp [decode, result, combinedOutput, narrowing, halfField_eq, widenOperand]

section
variable {s t : State} (h : step s = .next t)
include h

/-- R14 of the combined block. -/
theorem step_y : t.y = combinedOutput s.op s.a := by
  rw [step_next h, State.driveY_y, State.requestWord, result_decode_joinRequest]

/-- R14 of fp32_to_fp16_converter. -/
theorem step_f16Out : t.f16Out = narrow s.f32In := by
  rw [step_next h, State.driveY_f16Out, State.settleStandalone_f16Out]

/-- R14 of fp16_to_fp32_converter. -/
theorem step_f32Out : t.f32Out = widen s.f16In := by
  rw [step_next h, State.driveY_f32Out, State.settleStandalone_f32Out]

end

/-- Settles O14: after a step each output is a function of its own block's inputs. -/
theorem eachOutputDependsOnItsOwnInputs : Obligations.EachOutputDependsOnItsOwnInputs := by
  intro s s' t t' h h'
  refine ⟨fun hop ha => ?_, fun hin => ?_, fun hin => ?_⟩
  · rw [step_y h, step_y h', hop, ha]
  · rw [step_f16Out h, step_f16Out h', hin]
  · rw [step_f32Out h, step_f32Out h', hin]

end Sys2Proof.Machine

/-! PROOFS. The request that a word carries (R35 to R37), and the ports around a step: what it reads, what it drives and
what it leaves alone (R14, R16, R17, R19, R24, R100). -/

namespace Sys2Proof

@[simp] theorem ignoredField_joinRequest_joinHalves (op : Bit) (x h : Half) :
    ignoredField (joinRequest op (joinHalves x h)) = x := by
  rw [ignoredField_eq, operandField_joinRequest, joinHalves, BitVec.extractLsb'_append_eq_left]

@[simp] theorem halfField_joinRequest_joinHalves (op : Bit) (x h : Half) :
    halfField (joinRequest op (joinHalves x h)) = h := by
  rw [halfField_eq, operandField_joinRequest, joinHalves, BitVec.extractLsb'_append_eq_right]

/-- A request's word decodes to the request, the ignored half of WIDEN included (R36, R37). -/
@[simp] theorem decode_encode (i : Instr) : decode (encode i) = i := by
  cases i with
  | narrow a => simp [encode, decode]
  | widen x h => simp [encode, decode]

namespace Machine

/-! ### Operands and results on the ports -/

/-- R38's result of NARROW, in R14's words `zext_32`. -/
theorem narrowResult_eq_setWidth (r : Half) : narrowResult r = r.setWidth 32 := by
  rw [BitVec.setWidth_eq_append (by decide)]
  rfl

/-- R14's equation for `y`, with the zero-extension and the operand bits written out. -/
theorem combinedOutput_eq (op : Bit) (a : Word) :
    combinedOutput op a = if op = 0#1 then (narrow a).setWidth 32 else widen (a.extractLsb' 0 16) := by
  rw [← narrowResult_eq_setWidth]
  rfl

@[simp] theorem combinedOutput_zero (a : Word) : combinedOutput 0#1 a = narrowResult (narrow a) := rfl

@[simp] theorem combinedOutput_one (a : Word) : combinedOutput 1#1 a = widen (widenOperand a) := rfl

/-- WIDEN's operand is the lower half, whatever the upper half is (R17). -/
@[simp] theorem widenOperand_joinHalves (x h : Half) : widenOperand (joinHalves x h) = h :=
  BitVec.extractLsb'_append_eq_right

/-- R14, R19: a request's result is the combined block's output for the bits of its word. -/
theorem result_eq_combinedOutput (i : Instr) :
    result i = combinedOutput (opField (encode i)) (operandField (encode i)) := by
  rw [← result_decode_joinRequest, joinRequest_fields, decode_encode]

/-! ### What a step does to each port -/

/-- R14 as the whole next state: the three outputs follow the present inputs, and nothing else changes. -/
theorem step_eq_outputs (s : State) :
    step s = .next { s with
      y := combinedOutput s.op s.a, f16Out := narrow s.f32In, f32Out := widen s.f16In } := by
  rw [step_eq, State.requestWord, result_decode_joinRequest]
  rfl

/-- R90: a step of any state answers a next state. -/
theorem step_answers (s : State) : ∃ t, step s = .next t := ⟨_, step_eq s⟩

section
variable {s t : State} (h : step s = .next t)
include h

/-- R16 with R38: the result port in NARROW. -/
theorem step_y_of_narrow (hop : s.op = 0#1) : t.y = narrowResult (narrow s.a) := by
  rw [step_y h, hop, combinedOutput_zero]

/-- R17: the result port in WIDEN. -/
theorem step_y_of_widen (hop : s.op = 1#1) : t.y = widen (widenOperand s.a) := by
  rw [step_y h, hop, combinedOutput_one]

theorem step_op : t.op = s.op := by
  rw [step_next h, State.driveY_op, State.settleStandalone_op]

theorem step_a : t.a = s.a := by
  rw [step_next h, State.driveY_a, State.settleStandalone_a]

theorem step_f32In : t.f32In = s.f32In := by
  rw [step_next h, State.driveY_f32In, State.settleStandalone_f32In]

theorem step_f16In : t.f16In = s.f16In := by
  rw [step_next h, State.driveY_f16In, State.settleStandalone_f16In]

/-- A step settles the outputs from any state: it drives them from inputs that it leaves as they are. -/
theorem settled_of_step : t.Settled := by
  refine ⟨?_, ?_, ?_⟩
  · rw [step_y h, step_op h, step_a h]
  · rw [step_f16Out h, step_f32In h]
  · rw [step_f32Out h, step_f16In h]

end

/-- Settled outputs are already those a step drives. -/
theorem step_of_settled {s : State} (h : s.Settled) : step s = .next s := by
  obtain ⟨hy, hf16, hf32⟩ := h
  rw [step_eq_outputs, ← hy, ← hf16, ← hf32]

/-! ### Presenting a request and serving it -/

/-- The step after a request is presented runs that request. -/
theorem step_present (i : Instr) (s : State) :
    step (s.present i) = exec i (s.present i).settleStandalone := by
  rw [step, State.present_eq, requestWord_presentWord, decode_encode]

/-- All that serving a request does, as the whole next state. -/
theorem serve_eq (i : Instr) (s : State) :
    serve i s = .next ((s.present i).settleStandalone.driveY (result i)) := by
  rw [serve, step_present, exec_eq]

/-- The input ports still carry the request after it is served, so presenting it again changes nothing. -/
theorem present_of_serve {i : Instr} {s t : State} (h : serve i s = .next t) : t.present i = t := by
  rw [serve_eq] at h
  obtain rfl := Host.Outcome.next.inj h
  rfl

/-- Serving a request again answers the same state. -/
theorem serve_again {i : Instr} {s t : State} (h : serve i s = .next t) : serve i t = .next t := by
  rw [serve, present_of_serve h]
  exact step_of_settled (settled_of_step h)

/-! ### The statements -/

/-- Settles O11: a step settles the outputs whether or not they were settled before. -/
theorem stepKeepsOutputsSettled : Obligations.StepKeepsOutputsSettled :=
  fun _ _ _ h => settled_of_step h

/-- Settles O7: the definition of a step, with the two port operations it calls written out. -/
theorem stepRunsTheRequestOnThePorts : Obligations.StepRunsTheRequestOnThePorts :=
  fun _ => rfl

/-- Settles O8: `op` and `a` are the two fields of the request's word. -/
theorem presentedRequestIsRun : Obligations.PresentedRequestIsRun := by
  intro s i
  exact ⟨opField (encode i), operandField (encode i), (joinRequest_fields _).symm, rfl, step_present i s⟩

/-- Settles O9, port by port. -/
theorem outputsAreFunctionsOfTheInputs : Obligations.OutputsAreFunctionsOfTheInputs := by
  intro s
  obtain ⟨t, h⟩ := step_answers s
  exact ⟨t, h, (step_y h).trans (combinedOutput_eq s.op s.a), step_f16Out h, step_f32Out h⟩

/-- Settles O12: a step leaves the reset state as it is, so its outputs are those that a step drives. -/
theorem resetOutputsAreSettled : Obligations.ResetOutputsAreSettled :=
  have h : step State.reset = .next State.reset := rfl
  settled_of_step h

/-- Settles O13: the next state is written in terms of the four input ports alone. -/
theorem nothingButTheInputsReachesAStep : Obligations.NothingButTheInputsReachesAStep := by
  refine ⟨fun _ _ => rfl, fun s s' hop ha hf32 hf16 => ?_⟩
  rw [step_eq_outputs s, step_eq_outputs s', hop, ha, hf32, hf16]

/-- Settles O15: the next state whole, from which the same request changes nothing. -/
theorem requestsHaveNoSideEffectAndAreIdempotent : Obligations.RequestsHaveNoSideEffectAndAreIdempotent := by
  intro i s
  exact ⟨_, serve_eq i s, rfl, rfl, serve_again (serve_eq i s)⟩

/-- Settles O16: `op` and `a` are the two fields of the request's word. -/
theorem oneStepReturnsTheResultOfTheRequest : Obligations.OneStepReturnsTheResultOfTheRequest := by
  intro i s
  refine ⟨opField (encode i), operandField (encode i), (joinRequest_fields _).symm,
    _, serve_eq i s, State.driveY_y _ _, ?_⟩
  rw [result_eq_combinedOutput, combinedOutput_eq]

/-- Settles O17: the result port is `0x0000 ++ Narrow(a)`, and each half is read back. -/
theorem narrowRequestDrivesBothHalvesOfY : Obligations.NarrowRequestDrivesBothHalvesOfY := by
  intro s hop
  obtain ⟨t, h⟩ := step_answers s
  refine ⟨t, h, ?_, ?_⟩
  · rw [step_y_of_narrow h hop, narrowResult, BitVec.extractLsb'_append_eq_right]
  · rw [step_y_of_narrow h hop, narrowResult, BitVec.extractLsb'_append_eq_left]

/-- Settles O18: with `op = 1` the result port is a function of WIDEN's operand, the lower half. -/
theorem widenIgnoresTheUpperOperandBits : Obligations.WidenIgnoresTheUpperOperandBits := by
  intro s x hop
  obtain ⟨t, h⟩ := step_answers s
  obtain ⟨t', h'⟩ := step_answers { s with a := joinHalves x (widenOperand s.a) }
  refine ⟨t, t', h, h', step_y_of_widen h hop, ?_⟩
  rw [step_y_of_widen h' hop, step_y_of_widen h hop, widenOperand_joinHalves]

/-- Settles O20: a request drives `y`, and driving `y` touches no other port. -/
theorem requestsChangeYAlone : Obligations.RequestsChangeYAlone := by
  intro i s t h
  rw [exec_next h]
  simp

end Machine

end Sys2Proof

/-! PROOFS. Runs of a platform of several instances (R27, R98; log entry 13). -/

namespace Sys2Proof.Machine

/-- R19: serving a request completes and leaves its result on the result port, whatever the state before. -/
theorem serve_answers (i : Instr) (s : State) : ∃ t, serve i s = .next t ∧ t.y = result i :=
  ⟨_, serve_eq i s, State.driveY_y _ _⟩

/-- A request to an existing instance is served there alone, and its result comes before those of the rest. -/
theorem runPlatform_cons {k : Nat} {i : Instr} {s t : State} {instances : List State}
    (requests : List (Nat × Instr)) (hs : instances[k]? = some s) (ht : serve i s = .next t) :
    runPlatform ((k, i) :: requests) instances =
      (runPlatform requests (instances.set k t)).map fun r => (r.1, t.y :: r.2) := by
  simp only [runPlatform, hs, ht]

/-- Settles O53, by induction on the requests: the first one replaces its own instance, so the rest still go to
existing instances, and an instance named nowhere is replaced neither by the first nor by the rest. -/
theorem resultsDoNotDependOnOrderOrInstance : Obligations.ResultsDoNotDependOnOrderOrInstance := by
  intro requests
  induction requests with
  | nil => exact fun instances _ => ⟨instances, rfl, rfl, fun _ _ => rfl⟩
  | cons p rest ih =>
    obtain ⟨k, i⟩ := p
    intro instances inRange
    obtain ⟨hk, restInRange⟩ := List.forall_mem_cons.mp inRange
    obtain ⟨t, ht, hy⟩ := serve_answers i instances[k]
    obtain ⟨after, hrun, hlen, hframe⟩ := ih (instances.set k t) (by simpa using restInRange)
    refine ⟨after, ?_, by simpa using hlen, fun j hj => ?_⟩
    · rw [runPlatform_cons rest (List.getElem?_eq_getElem hk) ht, hrun, Option.map_some, hy, List.map_cons]
    · obtain ⟨hne, restElsewhere⟩ := List.forall_mem_cons.mp hj
      rw [hframe j restElsewhere, List.getElem?_set_ne hne]

end Sys2Proof.Machine

/-! PROOFS. Request words and requests (R35 to R40, R42): encoding and decoding are inverse, and a word's row of the
opcode map. -/

namespace Sys2Proof

/-- A 32-bit operand is its two halves. -/
@[simp] theorem joinHalves_extractLsb' (a : Word) : joinHalves (a.extractLsb' 16 16) (a.extractLsb' 0 16) = a :=
  BitVec.extractLsb'_append_extractLsb' (w := 16) (len := 16)

/-- R39: every request is legal. -/
theorem Instr.wf_eq_true (i : Instr) : i.wf = true := by
  cases i <;> rfl

/-- R36: with `op = 0` a word is NARROW of its operand bits. -/
theorem decode_of_opField_zero {w : ReqWord} (hop : opField w = 0#1) : decode w = .narrow (operandField w) :=
  if_pos hop

/-- R36, R37: with `op = 1` a word is WIDEN of the two halves of its operand bits. -/
theorem decode_of_opField_ne {w : ReqWord} (hop : opField w ≠ 0#1) :
    decode w = .widen ((operandField w).extractLsb' 16 16) ((operandField w).extractLsb' 0 16) := by
  rw [decode, if_neg hop, ignoredField_eq, halfField_eq]

/-- Nothing of a word is lost in decoding it (R35, R39). -/
@[simp] theorem encode_decode (w : ReqWord) : encode (decode w) = w := by
  by_cases hop : opField w = 0#1
  · rw [decode_of_opField_zero hop, encode, ← hop, joinRequest_fields]
  · have hset : opField w = 1#1 := (BitVec.eq_zero_or_eq_one _).resolve_left hop
    rw [decode_of_opField_ne hop, encode, joinHalves_extractLsb', ← hset, joinRequest_fields]

/-- R36: the operation select alone gives the mnemonic. -/
theorem decode_mnemonic (w : ReqWord) :
    (decode w).mnemonic = if opField w = 0#1 then "NARROW" else "WIDEN" := by
  by_cases hop : opField w = 0#1
  · rw [decode_of_opField_zero hop, if_pos hop, Instr.mnemonic]
  · rw [decode_of_opField_ne hop, if_neg hop, Instr.mnemonic]

/-- The operation select is bit 32. -/
theorem opField_eq_of_bit32 {w w' : ReqWord} (h : w.getLsbD 32 = w'.getLsbD 32) : opField w = opField w' := by
  apply BitVec.eq_of_getLsbD_eq
  intro i hi
  obtain rfl : i = 0 := by omega
  simpa [opField] using h

/-- A number of at most 33 bits decodes as the word it is. -/
theorem decodeNat_of_lt {w : Nat} (hw : w < 2 ^ 33) : decodeNat w = .request (decode (BitVec.ofNat 33 w)) :=
  if_pos (decide_eq_true hw)

/-- A longer number is rejected by name. -/
theorem decodeNat_of_le {w : Nat} (hw : 2 ^ 33 ≤ w) : decodeNat w = .rejected .notARequestWord :=
  if_neg (by simpa [isRequestWord] using hw)

/-- Each request has a row of the opcode map. -/
theorem opSelect_statement (i : Instr) : Laws.OpSelect.Statement i := by
  cases i with
  | narrow a => exact Laws.OpSelect.narrow a
  | widen x h => exact Laws.OpSelect.widen x h

/-- The rows of the opcode map have one mask, and their patterns tell them apart. -/
theorem opcodeRows_pattern_inj :
    ∀ r ∈ opcodeRows, ∀ r' ∈ opcodeRows, r.mask = r'.mask ∧ (r.pattern = r'.pattern → r = r') := by
  decide

/-- No word is under two rows of the opcode map. -/
theorem row_eq_of_covers {r r' : OpcodeRow} {w : ReqWord} (hr : r ∈ opcodeRows) (hr' : r' ∈ opcodeRows)
    (hc : r.covers w = true) (hc' : r'.covers w = true) : r = r' := by
  obtain ⟨sameMask, inj⟩ := opcodeRows_pattern_inj r hr r' hr'
  have hp : w &&& r.mask = r.pattern := eq_of_beq hc
  have hp' : w &&& r'.mask = r'.pattern := eq_of_beq hc'
  exact inj (by rw [← hp, ← hp', sameMask])

/-- Settles O1: no operand bit is lost in the word. -/
theorem decodeOfEncodeIsTheRequest : Obligations.DecodeOfEncodeIsTheRequest :=
  fun i => ⟨i.wf_eq_true, decode_encode i⟩

/-- Settles O2: each word is its two fields put together again. -/
theorem encodeOfDecodeIsTheWord : Obligations.EncodeOfDecodeIsTheWord :=
  encode_decode

/-- Settles O3: the first two words are those of the requests, and by `decode_mnemonic` the mnemonic
is read off the operation select, which is bit 32. -/
theorem operationIsToldByBit32Alone : Obligations.OperationIsToldByBit32Alone := by
  refine ⟨fun a => ?_, fun a => ?_, fun w w' h => ?_⟩
  · exact decode_encode (.narrow a)
  · have h := decode_encode (.widen (a.extractLsb' 16 16) (a.extractLsb' 0 16))
    rwa [encode, joinHalves_extractLsb'] at h
  · rw [decode_mnemonic, decode_mnemonic, opField_eq_of_bit32 h]

/-- Settles O4: the step after a word is presented runs the request that the word decodes to. -/
theorem everyRequestWordDecodesAndRuns : Obligations.EveryRequestWordDecodesAndRuns := by
  refine ⟨fun w hw => ?_, fun w => decodeNat_of_le⟩
  refine ⟨_, decodeNat_of_lt hw, Instr.wf_eq_true _, ?_, fun s => ?_⟩
  · rw [encode_decode, BitVec.toNat_ofNat, Nat.mod_eq_of_lt hw]
  · refine ⟨_, Machine.step_eq _, ?_⟩
    rw [Machine.State.driveY_y, Machine.requestWord_presentWord]

/-- Settles O5: the row of the decoded request covers the word, and no word is under two rows. -/
theorem opcodeRowsPartitionTheWords : Obligations.OpcodeRowsPartitionTheWords := by
  intro w
  obtain ⟨-, r, hr, hm, hc⟩ := opSelect_statement (decode w)
  rw [encode_decode] at hc
  exact ⟨r, hr, hc, hm, fun r' hr' hc' => row_eq_of_covers hr' hr hc' hc⟩

/-- Settles O6: the three words are those of the requests, which decoding gives back. -/
theorem sampleWordsDecode : Obligations.SampleWordsDecode :=
  ⟨decode_encode (.narrow 0x3FC00000#32), decode_encode (.widen 0x0000#16 0x3E00#16),
    decode_encode (.widen 0xDEAD#16 0x3C00#16)⟩

namespace Machine

/-- Settles O19: a request drives `y` with its result, and nothing else. -/
theorem requestsCompleteWithTheAssembledResult : Obligations.RequestsCompleteWithTheAssembledResult :=
  fun s a x h => ⟨exec_eq (.narrow a) s, exec_eq (.widen x h) s⟩

/-- Settles O57: the word of the assembled request, the operand of `WIDEN <a>` being its two halves. -/
theorem assembledLinesHaveTheirWords : Obligations.AssembledLinesHaveTheirWords :=
  ⟨fun _ => rfl, fun _ => rfl, fun a => congrArg (joinRequest 1#1) (joinHalves_extractLsb' a)⟩

/-- Settles O58: the request does not depend on the convention, and serving it leaves its result on `y`. -/
theorem callingConventionsAreTheSameRequest : Obligations.CallingConventionsAreTheSameRequest := by
  refine ⟨fun c x s => ⟨rfl, ?_⟩, fun c h s => ⟨rfl, ?_⟩⟩
  · obtain ⟨t, ht, hy⟩ := serve_answers (.narrow x) s
    refine ⟨t, ht, rfl, ?_⟩
    rw [hy, result, narrowResult, BitVec.extractLsb'_append_eq_right]
  · obtain ⟨t, ht, hy⟩ := serve_answers (.widen 0#16 h) s
    exact ⟨t, ht, congrArg Stored.word hy⟩

end Machine

end Sys2Proof

/-! PROOFS. The layouts and the classes of the two formats (R30 to R33). -/

namespace Sys2Proof.Machine

/-- R32 and R33 in one: the class of a pattern by its exponent field `e` and its mantissa field `m` as numbers, `top`
being the exponent field of all ones. -/
def fieldClass (top e m : Nat) : FpClass :=
  if e = 0 then (if m = 0 then .zero else .subnormal)
  else if e = top then (if m = 0 then .infinity else .nan)
  else .normal

/-! ### One condition on the fields for each class -/

section
variable {top : Nat} (e m : Nat)

theorem fieldClass_eq_zero_iff : fieldClass top e m = .zero ↔ e = 0 ∧ m = 0 := by
  unfold fieldClass
  split_ifs <;> simp_all

theorem fieldClass_eq_subnormal_iff : fieldClass top e m = .subnormal ↔ e = 0 ∧ m ≠ 0 := by
  unfold fieldClass
  split_ifs <;> simp_all

theorem fieldClass_eq_normal_iff : fieldClass top e m = .normal ↔ e ≠ 0 ∧ e ≠ top := by
  unfold fieldClass
  split_ifs <;> simp_all

theorem fieldClass_eq_infinity_iff (htop : 0 ≠ top) : fieldClass top e m = .infinity ↔ e = top ∧ m = 0 := by
  unfold fieldClass
  split_ifs <;> simp_all

theorem fieldClass_eq_nan_iff (htop : 0 ≠ top) : fieldClass top e m = .nan ↔ e = top ∧ m ≠ 0 := by
  unfold fieldClass
  split_ifs <;> simp_all

end

/-! ### The classes of the two formats are classes of their fields -/

/-- The magnitude bits are zero when both fields are. -/
theorem mag32_eq_zero_iff (a : Word) : mag32 a = 0#31 ↔ (exp32 a).toNat = 0 ∧ (man32 a).toNat = 0 := by
  rw [← BitVec.toNat_inj, mag32_eq_fields, BitVec.toNat_ofNat]
  omega

/-- The magnitude bits are zero when both fields are. -/
theorem mag16_eq_zero_iff (h : Half) : mag16 h = 0#15 ↔ (exp16 h).toNat = 0 ∧ (man16 h).toNat = 0 := by
  rw [← BitVec.toNat_inj, mag16_eq_fields, BitVec.toNat_ofNat]
  omega

theorem class32_eq_fieldClass (a : Word) : class32 a = fieldClass 255 (exp32 a).toNat (man32 a).toNat := by
  rw [class32, fieldClass]
  simp only [mag32_eq_zero_iff]
  simp only [← BitVec.toNat_inj, BitVec.toNat_ofNat]
  by_cases he : (exp32 a).toNat = 0
  · simp [he]
  · simp [he]

theorem class16_eq_fieldClass (h : Half) : class16 h = fieldClass 31 (exp16 h).toNat (man16 h).toNat := by
  rw [class16, fieldClass]
  simp only [mag16_eq_zero_iff]
  simp only [← BitVec.toNat_inj, BitVec.toNat_ofNat]
  by_cases he : (exp16 h).toNat = 0
  · simp [he]
  · simp [he]

/-! ### The statements -/

/-- Settles O21: the three fields are the pattern's bits from 31, from 23 and from 0 on. -/
theorem binary32FieldsAreWhereTheLayoutPutsThem : Obligations.Binary32FieldsAreWhereTheLayoutPutsThem := by
  refine fun a => ⟨?_, fun i hi => ?_, fun i hi => ?_⟩
  · simp [sign32]
  · simp [exp32, hi]
  · simp [man32, hi]

/-- Settles O22: the three fields are the pattern's bits from 15, from 10 and from 0 on. -/
theorem binary16FieldsAreWhereTheLayoutPutsThem : Obligations.Binary16FieldsAreWhereTheLayoutPutsThem := by
  refine fun h => ⟨?_, fun i hi => ?_, fun i hi => ?_⟩
  · simp [sign16]
  · simp [exp16, hi]
  · simp [man16, hi]

/-- Settles O23: the class is given by the fields, and as the magnitude is `E * 2^23 + M` with `M < 2^23` and
`E < 256`, each range is the condition on the fields of its class. -/
theorem binary32ClassesAreTheTabledRanges : Obligations.Binary32ClassesAreTheTabledRanges := by
  intro a
  have hE := (exp32 a).isLt
  have hM := (man32 a).isLt
  have htop : 0 ≠ 255 := by decide
  simp only [class32_eq_fieldClass, fieldClass_eq_zero_iff, fieldClass_eq_subnormal_iff, fieldClass_eq_normal_iff,
    fieldClass_eq_infinity_iff _ _ htop, fieldClass_eq_nan_iff _ _ htop, mag32_eq_fields]
  refine ⟨(mag32_eq_zero_iff a).symm, ?_, ?_, ?_, ?_, ?_, ?_, ?_, ?_⟩ <;> bv_omega

/-- Settles O24: the class is given by the fields, and as the magnitude is `E * 2^10 + M` with `M < 2^10` and
`E < 32`, each range is the condition on the fields of its class. -/
theorem binary16ClassesAreTheTabledRanges : Obligations.Binary16ClassesAreTheTabledRanges := by
  intro h
  have hE := (exp16 h).isLt
  have hM := (man16 h).isLt
  have htop : 0 ≠ 31 := by decide
  simp only [class16_eq_fieldClass, fieldClass_eq_zero_iff, fieldClass_eq_subnormal_iff, fieldClass_eq_normal_iff,
    fieldClass_eq_infinity_iff _ _ htop, fieldClass_eq_nan_iff _ _ htop, mag16_eq_fields]
  refine ⟨(mag16_eq_zero_iff h).symm, ?_, ?_, ?_, ?_, ?_, ?_, ?_, ?_⟩ <;> bv_omega

end Sys2Proof.Machine

/-! PROOFS. The host's side (R41): its variables and its statement, and the text of assembler lines. -/

namespace Sys2Proof.Machine

/-! ### Host variables -/

/-- A variable that is stored into holds what was stored. -/
@[simp] theorem lookup_setVar_self (n : Nat) (v : Word) (vars : HostVars) : (setVar n v vars).lookup n = some v :=
  List.lookup_cons_self

/-- Removing one variable's entries leaves the others as they are. -/
theorem lookup_filter_ne {n k : Nat} (hk : k ≠ n) (vars : HostVars) :
    (vars.filter fun p => p.1 != n).lookup k = vars.lookup k := by
  induction vars with
  | nil => rfl
  | cons p rest ih =>
    obtain ⟨j, v⟩ := p
    by_cases hj : j = n
    · simp [hj, beq_eq_false_iff_ne.mpr hk, List.lookup_cons, ih]
    · simp [hj, List.lookup_cons, ih]

/-- Storing into one variable leaves the others as they are. -/
theorem lookup_setVar_of_ne {n k : Nat} (hk : k ≠ n) (v : Word) (vars : HostVars) :
    (setVar n v vars).lookup k = vars.lookup k := by
  rw [setVar, List.lookup_cons, beq_eq_false_iff_ne.mpr hk]
  exact lookup_filter_ne hk vars

/-- R41: a statement whose source holds a value stores what a step leaves on `y`. -/
theorem runStmt_of_lookup {c : HostStmt} {vars : HostVars} {s t : State} {v : Word}
    (hv : vars.lookup c.src = some v) (ht : step (s.presentWord (joinRequest c.op v)) = .next t) :
    runStmt c vars s = some (setVar c.dst t.y vars, t) := by
  simp only [runStmt, hv, ht]

/-- R14 for a request the host presents as a word. -/
theorem step_presentWord_y {s t : State} {op : Bit} {a : Word}
    (h : step (s.presentWord (joinRequest op a)) = .next t) : t.y = combinedOutput op a := by
  rw [step_y h, State.presentWord_op, State.presentWord_a, opField_joinRequest, operandField_joinRequest]

/-- Settles O55: the step of the presented word leaves R14's `y`, which is stored into `vD` alone. -/
theorem hostStatementStoresTheResult : Obligations.HostStatementStoresTheResult := by
  refine ⟨fun c vars s v hv => ?_, fun c vars s hv => ?_⟩
  · obtain ⟨t, ht⟩ := step_answers (s.presentWord (joinRequest c.op v))
    refine ⟨_, t, runStmt_of_lookup hv ht, ?_, fun n hn => lookup_setVar_of_ne hn t.y vars⟩
    rw [lookup_setVar_self, step_presentWord_y ht]
    rfl
  · simp only [runStmt, hv]

/-! ### Assembler text -/

/-- A number printed with enough digits is read back. -/
theorem hexNumber_hexDigits {k n : Nat} (hn : n < 16 ^ k) : hexNumber (hexDigits k n) = some n := by
  induction k generalizing n with
  | zero =>
    obtain rfl : n = 0 := by simpa using hn
    rfl
  | succ k ih =>
    have high : n / 16 < 16 ^ k := by
      rw [Nat.pow_succ] at hn
      omega
    have low : n % 16 < 16 := Nat.mod_lt _ (by decide)
    rw [hexDigits, hexNumber_concat, ih high, hexValue_hexDigit low]
    simp [Nat.div_add_mod]

/-- An operand printed with enough digits is read back, with the number of its digits. -/
theorem parseOperand_hexDigits {k n : Nat} (hn : n < 16 ^ k) :
    parseOperand ('0' :: 'x' :: hexDigits k n) = some (k, n) := by
  simp [parseOperand, hexNumber_hexDigits hn]

/-- Settles O56: a line is its mnemonic, a space and its operand, and the operand is read back. -/
theorem printedLinesParseBack : Obligations.PrintedLinesParseBack := by
  intro l
  cases l with
  | narrow a =>
    have operand := parseOperand_hexDigits (k := 8) a.isLt
    simp [printLine, parseLine, operand, isMnemonic]
  | widenHalf h =>
    have operand := parseOperand_hexDigits (k := 4) h.isLt
    simp [printLine, parseLine, operand, isMnemonic]
  | widenWord a =>
    have operand := parseOperand_hexDigits (k := 8) a.isLt
    simp [printLine, parseLine, operand, isMnemonic]

end Sys2Proof.Machine

/-! PROOFS. NARROW branch by branch (R53 to R61): one equation for each branch of R50, in terms of the exponent field
as a number. -/

namespace Sys2Proof.Machine

/-- What NARROW of a request does, given the pattern it narrows to (R38). -/
theorem exec_narrow_of_eq {a : Word} {r : Half} (h : narrow a = r) (s : State) :
    exec (.narrow a) s = .next { s with y := 0#16 ++ r } := by
  subst h
  exact exec_eq (.narrow a) s

/-! ### The branches of R50 -/

theorem significand32_bounds (a : Word) : 2 ^ 23 ≤ significand32 a ∧ significand32 a < 2 ^ 24 := by
  have hM := (man32 a).isLt
  unfold significand32
  omega

/-- R57's two summands in one. -/
theorem rebiasNarrow_eq (e : ℕ) : rebiasNarrow e = (e : ℤ) - 112 := by
  unfold rebiasNarrow
  omega

section
variable {a : Word}

/-- R53, R54: zeros and subnormals give the zero of their sign. -/
theorem narrow_of_exp_zero (he : exp32 a = 0#8) : narrow a = zero16 (sign32 a) := by
  simp [narrow, he]

/-- An exponent field above zero sends a pattern past the test for zero. -/
theorem mag32_ne_zero_of_exp (he : exp32 a ≠ 0#8) : mag32 a ≠ 0#31 := by
  rw [Ne, mag32_eq_zero_iff]
  exact fun h => he (BitVec.eq_of_toNat_eq h.1)

/-- R55: an infinity gives the infinity of its sign. -/
theorem narrow_of_infinity (he : exp32 a = 255#8) (hm : man32 a = 0#23) : narrow a = inf16 (sign32 a) := by
  have hmag : mag32 a ≠ 0#31 := mag32_ne_zero_of_exp (by rw [he]; decide)
  simp [narrow, he, hm, hmag]

/-- R56: a NaN gives the canonical NaN. -/
theorem narrow_of_nan (he : exp32 a = 255#8) (hm : man32 a ≠ 0#23) : narrow a = canonicalNaN16 := by
  have hmag : mag32 a ≠ 0#31 := mag32_ne_zero_of_exp (by rw [he]; decide)
  simp [narrow, he, hm, hmag]

/-- R52: the branch on the rebiased exponent is reached for the exponent fields 1 to 254. -/
theorem narrow_of_normal (lo : 1 ≤ (exp32 a).toNat) (hi : (exp32 a).toNat ≤ 254) :
    narrow a = narrowNormal (sign32 a) (rebiasNarrow (exp32 a).toNat) (man32 a).toNat := by
  have h0 : exp32 a ≠ 0#8 := fun h => by simp [h] at lo
  have h255 : exp32 a ≠ 255#8 := fun h => by simp [h] at hi
  rw [narrow, if_neg (mag32_ne_zero_of_exp h0), if_neg h0, if_neg h255]

/-- R58: from the exponent field 143 on, overflow to infinity. -/
theorem narrow_of_overflow (lo : 143 ≤ (exp32 a).toNat) (hi : (exp32 a).toNat ≤ 254) :
    narrow a = inf16 (sign32 a) := by
  rw [narrow_of_normal (by omega) hi, narrowNormal, rebiasNarrow_eq, if_pos (by omega)]

/-- R59: up to the exponent field 112, the underflow magnitude of the significand. -/
theorem narrow_of_underflow (lo : 1 ≤ (exp32 a).toNat) (hi : (exp32 a).toNat ≤ 112) :
    narrow a = join16 (sign32 a)
      (BitVec.ofNat 15 (underflowMagnitude (126 - (exp32 a).toNat) (significand32 a))) := by
  have shift : (14 - (((exp32 a).toNat : ℤ) - 112)).toNat = 126 - (exp32 a).toNat := by omega
  rw [narrow_of_normal lo (by omega), narrowNormal, rebiasNarrow_eq, if_neg (by omega), if_pos (by omega), shift,
    significand32]

/-- R61: from the exponent field 113 to 142, the normal magnitude. -/
theorem narrow_of_normalRange (lo : 113 ≤ (exp32 a).toNat) (hi : (exp32 a).toNat ≤ 142) :
    narrow a = join16 (sign32 a)
      (BitVec.ofNat 15 (normalMagnitude ((exp32 a).toNat - 112) (man32 a).toNat)) := by
  have rebiased : (((exp32 a).toNat : ℤ) - 112).toNat = (exp32 a).toNat - 112 := by omega
  rw [narrow_of_normal (by omega) (by omega), narrowNormal, rebiasNarrow_eq, if_neg (by omega), if_neg (by omega),
    rebiased]

end

/-- Settles O25: a zero has the exponent field zero. -/
theorem narrowKeepsSignedZero : Obligations.NarrowKeepsSignedZero := by
  refine ⟨fun a s hmag => exec_narrow_of_eq (narrow_of_exp_zero ?_) s, by decide, by decide⟩
  obtain ⟨he, -⟩ := (mag32_eq_zero_iff a).mp hmag
  exact BitVec.eq_of_toNat_eq he

/-- Settles O27. -/
theorem narrowKeepsSignedInfinity : Obligations.NarrowKeepsSignedInfinity :=
  ⟨fun _ s he hm => exec_narrow_of_eq (narrow_of_infinity he hm) s, by decide, by decide⟩

/-- Settles O28: the NaN branch reads neither sign nor payload. -/
theorem narrowCollapsesEveryNaN : Obligations.NarrowCollapsesEveryNaN :=
  ⟨fun _ s he hm => exec_narrow_of_eq (narrow_of_nan he hm) s, by decide, by decide, by decide⟩

/-- Settles O29: the range lies within that of 9 bits, -256 to 255. -/
theorem rebiasedExponentAndItsRange : Obligations.RebiasedExponentAndItsRange := by
  intro e lo hi
  have hne := rebiasNarrow_eq e
  refine ⟨hne, by omega, by omega, BitVec.toInt_ofInt_eq_self (by decide) ?_ ?_⟩ <;> omega

/-! ### The underflow range (R59, R60) -/

/-- A bit of a number, as the number 0 or 1. -/
theorem testBit_ite_eq (x i : ℕ) : (if x.testBit i then 1 else 0) = x / 2 ^ i % 2 := by
  rw [← Nat.toNat_testBit]
  cases x.testBit i <;> rfl

/-- R59's formula, which R60's clamp does not change: a significand of 24 bits leaves nothing above a shift of 25 or
more, nor just below it. -/
theorem underflowMagnitude_eq (sh : ℕ) {sig : ℕ} (hsig : sig < 2 ^ 24) :
    underflowMagnitude sh sig = sig / 2 ^ sh + sig / 2 ^ (sh - 1) % 2 := by
  rcases Nat.lt_or_ge sh 25 with kept | clamped
  · exact underflowMagnitude_of_lt kept
  · have quotient : sig / 2 ^ sh = 0 :=
      Nat.div_eq_of_lt (hsig.trans_le (Nat.pow_le_pow_right (by decide) (by omega)))
    have below : sig / 2 ^ (sh - 1) = 0 :=
      Nat.div_eq_of_lt (hsig.trans_le (Nat.pow_le_pow_right (by decide) (by omega)))
    rw [underflowMagnitude_of_le clamped, quotient, below]

section
variable {sh sig : ℕ} (lo : 2 ^ 23 ≤ sig) (hi : sig < 2 ^ 24)
include lo hi

/-- R59 for `sh = 24`: no bit is retained and the leading 1 is the round bit. -/
theorem underflowMagnitude_24 : underflowMagnitude 24 sig = 1 := by
  rw [underflowMagnitude_of_lt (by decide)]
  omega

/-- R59 for `sh = 14`: ten bits are retained, and the carry out of them makes 1024. -/
theorem underflowMagnitude_14 :
    1 ≤ underflowMagnitude 14 sig ∧ underflowMagnitude 14 sig ≤ 1024 ∧
      (underflowMagnitude 14 sig = 1024 ↔ 2 ^ 24 - 2 ^ 13 ≤ sig) := by
  rw [underflowMagnitude_of_lt (by decide)]
  omega

/-- R59 for the shifts between: at most nine bits are retained and at least the leading 1. -/
theorem underflowMagnitude_between (h15 : 15 ≤ sh) (h23 : sh ≤ 23) :
    1 ≤ underflowMagnitude sh sig ∧ underflowMagnitude sh sig ≤ 512 := by
  have atMost : sig / 2 ^ sh ≤ sig / 2 ^ 15 :=
    Nat.div_le_div_left (Nat.pow_le_pow_right (by decide) h15) (by decide)
  have atLeast : sig / 2 ^ 23 ≤ sig / 2 ^ sh :=
    Nat.div_le_div_left (Nat.pow_le_pow_right (by decide) h23) (by positivity)
  rw [underflowMagnitude_of_lt (by omega)]
  omega

/-- R59's bounds, from the three ranges of shifts. -/
theorem underflowMagnitude_bounds (h14 : 14 ≤ sh) (h24 : sh ≤ 24) :
    1 ≤ underflowMagnitude sh sig ∧ underflowMagnitude sh sig ≤ 1024 ∧
      (underflowMagnitude sh sig = 1024 ↔ sh = 14 ∧ 2 ^ 24 - 2 ^ 13 ≤ sig) := by
  obtain rfl | rfl | ⟨h15, h23⟩ : sh = 14 ∨ sh = 24 ∨ (15 ≤ sh ∧ sh ≤ 23) := by omega
  · simpa using underflowMagnitude_14 lo hi
  · simp [underflowMagnitude_24 lo hi]
  · have := underflowMagnitude_between lo hi h15 h23
    omega

end

/-- The exponent field of an assembled pattern is what lies above the ten mantissa bits. -/
theorem exp16_join16 (s : Bit) (m : BitVec 15) : (exp16 (join16 s m)).toNat = m.toNat / 2 ^ 10 := by
  have fields := mag16_eq_fields (join16 s m)
  have hM := (man16 (join16 s m)).isLt
  rw [mag16_join16] at fields
  omega

/-- Settles O31: `hm` is the underflow magnitude of the significand, and its carry to 1024 is the exponent field 1. -/
theorem narrowUnderflowsWithRounding : Obligations.NarrowUnderflowsWithRounding := by
  refine ⟨fun a s lo hi => ?_, by decide, by decide, by decide⟩
  have hnarrow := narrow_of_underflow lo hi
  obtain ⟨sigLo, sigHi⟩ := significand32_bounds a
  have hne := rebiasNarrow_eq (exp32 a).toNat
  obtain ⟨sh, hsh⟩ : ∃ sh, sh = 126 - (exp32 a).toNat := ⟨_, rfl⟩
  rw [← hsh] at hnarrow
  refine ⟨sh, significand32 a, underflowMagnitude sh (significand32 a), by omega, hsh, by omega, by omega, rfl,
    sigHi, exec_narrow_of_eq hnarrow s, underflowMagnitude_of_le, fun h24 => ?_, ?_⟩
  · obtain ⟨hm1, hm1024, hmax⟩ := underflowMagnitude_bounds sigLo sigHi (sh := sh) (by omega) h24
    refine ⟨by rw [testBit_ite_eq, underflowMagnitude_eq sh sigHi], hm1, hm1024, hmax, ?_⟩
    rw [hnarrow, exp16_join16, BitVec.toNat_ofNat]
    split <;> omega
  · rintro rfl
    exact underflowMagnitude_24 sigLo sigHi

/-- Settles O32: up to the exponent field 101 the shift is 25 or more, and the magnitude bits are 0. -/
theorem underflowClampAgreesWithTheFormula : Obligations.UnderflowClampAgreesWithTheFormula := by
  refine ⟨fun sh sig _ hsig => ?_, fun a s lo hi => exec_narrow_of_eq ?_ s⟩
  · rw [testBit_ite_eq, underflowMagnitude_eq sh hsig]
  · rw [narrow_of_underflow lo (by omega), underflowMagnitude_of_le (by omega)]
    rfl

/-! ### The normal range (R61) -/

/-- The top ten mantissa bits. -/
theorem extractLsb'_13_10_toNat (a : Word) : (a.extractLsb' 13 10).toNat = (man32 a).toNat / 2 ^ 13 := by
  rw [BitVec.extractLsb'_toNat, Nat.shiftRight_eq_div_pow, man32_toNat]
  omega

/-- The first discarded bit. -/
theorem extractLsb'_12_1_toNat (a : Word) : (a.extractLsb' 12 1).toNat = (man32 a).toNat / 2 ^ 12 % 2 := by
  rw [BitVec.extractLsb'_toNat, Nat.shiftRight_eq_div_pow, man32_toNat]
  omega

/-- The truncated magnitude of the normal range (R61): the rebiased exponent above the top ten mantissa bits. -/
def normalTruncated (a : Word) : BitVec 15 := BitVec.ofNat 5 ((exp32 a).toNat - 112) ++ a.extractLsb' 13 10

section
variable {a : Word} (lo : 113 ≤ (exp32 a).toNat) (hi : (exp32 a).toNat ≤ 142)
include lo hi

theorem normalTruncated_toNat :
    (normalTruncated a).toNat = ((exp32 a).toNat - 112) * 2 ^ 10 + (man32 a).toNat / 2 ^ 13 := by
  rw [normalTruncated, BitVec.toNat_append, ← Nat.shiftLeft_add_eq_or_of_lt (BitVec.isLt _), Nat.shiftLeft_eq,
    extractLsb'_13_10_toNat, BitVec.toNat_ofNat]
  omega

/-- R61: the result is the truncated magnitude plus bit 12, under the sign. -/
theorem narrow_eq_normalTruncated_add :
    narrow a = join16 (sign32 a) (normalTruncated a + (a.extractLsb' 12 1).setWidth 15) := by
  rw [narrow_of_normalRange lo hi]
  congr 1
  apply BitVec.eq_of_toNat_eq
  rw [BitVec.toNat_add, normalTruncated_toNat lo hi, BitVec.toNat_setWidth, extractLsb'_12_1_toNat,
    normalMagnitude_eq, BitVec.toNat_ofNat]
  omega

end

/-- R61: where the increment does not carry out of the magnitude bits, incrementing them is incrementing the whole
pattern. -/
theorem join16_add_setWidth {s : Bit} {t : BitVec 15} {r : Bit} (h : t.toNat + r.toNat < 2 ^ 15) :
    join16 s (t + r.setWidth 15) = join16 s t + r.setWidth 16 := by
  have hs := s.isLt
  have hr := r.isLt
  apply BitVec.eq_of_toNat_eq
  rw [BitVec.toNat_add, join16_toNat, join16_toNat, BitVec.toNat_add, BitVec.toNat_setWidth, BitVec.toNat_setWidth]
  omega

/-- Settles O33: `t` is the truncated magnitude; the carry reaches 0x7C00 from the largest one alone. -/
theorem narrowRoundsTheNormalRangeOnBit12 : Obligations.NarrowRoundsTheNormalRangeOnBit12 := by
  intro a s lo hi
  have ht := normalTruncated_toNat lo hi
  have hr := (a.extractLsb' 12 1).isLt
  have hM := (man32 a).isLt
  have hne : (BitVec.ofNat 5 ((exp32 a).toNat - 112)).toNat = (exp32 a).toNat - 112 := by
    rw [BitVec.toNat_ofNat]
    omega
  have hnarrow := narrow_eq_normalTruncated_add lo hi
  refine ⟨BitVec.ofNat 5 ((exp32 a).toNat - 112), normalTruncated a, ?_, rfl, by omega, by omega,
    exec_narrow_of_eq hnarrow s, by omega, ?_, hnarrow.trans (join16_add_setWidth (by omega))⟩
  · rw [hne, rebiasNarrow_eq]
    omega
  · rw [← BitVec.toNat_inj (x := a.extractLsb' 13 10), ← BitVec.toNat_inj (x := a.extractLsb' 12 1), hne,
      extractLsb'_13_10_toNat, BitVec.toNat_ofNat, BitVec.toNat_ofNat]
    omega

end Sys2Proof.Machine

/-! PROOFS. NARROW's rounding in whole numbers (R62): magnitudes in units of the smallest subnormal of their format,
and one statement of which of them NARROW gives, from which the others follow. -/

namespace Sys2Proof.Machine

/-! ### Magnitudes as functions of the magnitude bits -/

/-- The magnitude of a pattern with magnitude bits `x`, in units of the smallest subnormal of a format with `p`
mantissa bits. Infinity counts as the next value above the finite ones. -/
def unitsOf (p x : ℕ) : ℕ := magnitudeUnits p (x / 2 ^ p) (x % 2 ^ p)

/-- The magnitude by fields is the magnitude by magnitude bits. -/
theorem unitsOf_fields {p e m : ℕ} (hm : m < 2 ^ p) : unitsOf p (e * 2 ^ p + m) = magnitudeUnits p e m := by
  have he : (e * 2 ^ p + m) / 2 ^ p = e := by
    rw [Nat.mul_comm, Nat.mul_add_div (by positivity), Nat.div_eq_of_lt hm, Nat.add_zero]
  rw [unitsOf, he, Nat.mul_comm, Nat.mul_add_mod, Nat.mod_eq_of_lt hm]

/-- Magnitude bits taken apart as a significand `q` above `k` further binades: the magnitude is `q` shifted by `k`.
The significand may be the one past the largest, so that a carry needs no case of its own. -/
theorem unitsOf_significand {p k q : ℕ} (hq : q ≤ 2 ^ (p + 1)) (hk : k = 0 ∨ 2 ^ p ≤ q) :
    unitsOf p (k * 2 ^ p + q) = q * 2 ^ k := by
  have hpow : 2 ^ (p + 1) = 2 ^ p + 2 ^ p := by ring
  rcases Nat.lt_or_ge q (2 ^ p) with small | large
  · obtain rfl : k = 0 := hk.resolve_right (by omega)
    rw [unitsOf_fields small, magnitudeUnits, if_pos rfl, pow_zero, Nat.mul_one]
  · obtain ⟨m, rfl⟩ := Nat.exists_eq_add_of_le large
    rcases Nat.lt_or_ge m (2 ^ p) with inside | carry
    · rw [show k * 2 ^ p + (2 ^ p + m) = (k + 1) * 2 ^ p + m by ring, unitsOf_fields inside, magnitudeUnits,
        if_neg (by omega), Nat.add_sub_cancel]
    · obtain rfl : m = 2 ^ p := by omega
      rw [show k * 2 ^ p + (2 ^ p + 2 ^ p) = (k + 2) * 2 ^ p + 0 by ring, unitsOf_fields (by positivity),
        magnitudeUnits, if_neg (by omega), show k + 2 - 1 = k + 1 by omega]
      ring

/-- Every magnitude bits are a significand above some binades. -/
theorem exists_significand (p x : ℕ) :
    ∃ k q, x = k * 2 ^ p + q ∧ q < 2 ^ (p + 1) ∧ (k = 0 ∨ 2 ^ p ≤ q) := by
  have hpow : 2 ^ (p + 1) = 2 ^ p + 2 ^ p := by ring
  have low : x % 2 ^ p < 2 ^ p := Nat.mod_lt x (by positivity)
  have parts : x / 2 ^ p * 2 ^ p + x % 2 ^ p = x := Nat.div_add_mod' x (2 ^ p)
  rcases Nat.eq_zero_or_pos (x / 2 ^ p) with he | he
  · rw [he, Nat.zero_mul, Nat.zero_add] at parts
    exact ⟨0, x, by omega, by omega, Or.inl rfl⟩
  · obtain ⟨k, hk⟩ := Nat.exists_eq_add_of_lt he
    rw [hk] at parts
    refine ⟨k, 2 ^ p + x % 2 ^ p, ?_, by omega, Or.inr (Nat.le_add_right _ _)⟩
    linarith

/-- Magnitudes are ordered as their magnitude bits are. -/
theorem unitsOf_strictMono (p : ℕ) : StrictMono (unitsOf p) := by
  refine strictMono_nat_of_lt_succ fun x => ?_
  obtain ⟨k, q, rfl, hq, hk⟩ := exists_significand p x
  rw [Nat.add_assoc, unitsOf_significand hq.le hk, unitsOf_significand hq (by omega)]
  exact Nat.mul_lt_mul_of_pos_right (Nat.lt_succ_self q) (by positivity)

/-- The magnitude of a binary32 pattern, in units of 2^-149. -/
def units32 (a : Word) : ℕ := unitsOf 23 (mag32 a).toNat

/-- The magnitude halfway between those of the binary16 magnitude bits `i` and `j`, in the units of binary32: of these
units 2^125 make one of binary16. -/
def halfway (i j : ℕ) : ℕ := (unitsOf 10 i + unitsOf 10 j) * 2 ^ 124

theorem halfway_le_halfway {i j i' j' : ℕ} (hi : i ≤ i') (hj : j ≤ j') : halfway i j ≤ halfway i' j' :=
  Nat.mul_le_mul_right _
    (Nat.add_le_add ((unitsOf_strictMono 10).monotone hi) ((unitsOf_strictMono 10).monotone hj))

theorem halfway_lt_halfway {i j i' : ℕ} (hi : i < i') : halfway i j < halfway i' j :=
  Nat.mul_lt_mul_of_pos_right (Nat.add_lt_add_right (unitsOf_strictMono 10 hi) _) (by positivity)

theorem halfway_self (i : ℕ) : halfway i i = unitsOf 10 i * 2 ^ 125 := by
  unfold halfway
  ring

/-! ### The round bit is the comparison with one half -/

/-- The bit below the last retained one is set exactly when the discarded part is at least one half (R62). -/
theorem roundBit_eq_ite {k : ℕ} (hk : 1 ≤ k) (x : ℕ) :
    x / 2 ^ (k - 1) % 2 = if 2 ^ k ≤ 2 * (x % 2 ^ k) then 1 else 0 := by
  obtain ⟨n, rfl⟩ := Nat.exists_eq_add_of_le' hk
  have low : x % 2 ^ n < 2 ^ n := Nat.mod_lt x (by positivity)
  rw [Nat.add_sub_cancel, Nat.pow_succ, Nat.mod_mul]
  rcases Nat.mod_two_eq_zero_or_one (x / 2 ^ n) with h | h
  · rw [h, if_neg (by omega)]
  · rw [h, if_pos (by omega)]

/-- The retained bits are a binary16 significand, without its leading 1 only where the exponent field is 0. -/
theorem retained_bounds (a : Word) :
    significand32 a / 2 ^ discardedBits a < 2 ^ 11 ∧
      ((exp32 a).toNat - 113 = 0 ∨ 2 ^ 10 ≤ significand32 a / 2 ^ discardedBits a) := by
  obtain ⟨sigLo, sigHi⟩ := significand32_bounds a
  by_cases normal : 113 ≤ (exp32 a).toNat
  · rw [show discardedBits a = 13 from if_pos normal]
    omega
  · have hd : discardedBits a = 126 - (exp32 a).toNat := if_neg normal
    have : significand32 a / 2 ^ discardedBits a ≤ significand32 a / 2 ^ 13 :=
      Nat.div_le_div_left (Nat.pow_le_pow_right (by decide) (by omega)) (by decide)
    omega

/-! ### The truncated magnitude among the binary16 magnitudes -/

/-- The magnitude of a binary32 normal is its significand, shifted by its exponent field. -/
theorem units32_eq_significand {a : Word} (lo : 1 ≤ (exp32 a).toNat) :
    units32 a = significand32 a * 2 ^ ((exp32 a).toNat - 1) := by
  obtain ⟨sigLo, sigHi⟩ := significand32_bounds a
  have hmag : (mag32 a).toNat = ((exp32 a).toNat - 1) * 2 ^ 23 + significand32 a := by
    rw [mag32_eq_fields, significand32]
    omega
  rw [units32, hmag, unitsOf_significand (by omega) (Or.inr sigLo)]

/-- The truncated magnitude has the retained bits as its significand. -/
theorem unitsOf_truncatedMagnitude (a : Word) :
    unitsOf 10 (truncatedMagnitude a) =
      significand32 a / 2 ^ discardedBits a * 2 ^ ((exp32 a).toNat - 113) := by
  obtain ⟨top, normalised⟩ := retained_bounds a
  exact unitsOf_significand top.le normalised

/-- The next magnitude has the next significand, even where that carries into the exponent field. -/
theorem unitsOf_truncatedMagnitude_succ (a : Word) :
    unitsOf 10 (truncatedMagnitude a + 1) =
      (significand32 a / 2 ^ discardedBits a + 1) * 2 ^ ((exp32 a).toNat - 113) := by
  obtain ⟨top, normalised⟩ := retained_bounds a
  rw [truncatedMagnitude, Nat.add_assoc]
  exact unitsOf_significand top (by omega)

/-- Below overflow, rounding up reaches infinity's magnitude bits at most. -/
theorem truncatedMagnitude_lt (a : Word) (hi : (exp32 a).toNat ≤ 142) : truncatedMagnitude a < 0x7C00 := by
  obtain ⟨retained, -⟩ := retained_bounds a
  unfold truncatedMagnitude
  omega

section
variable {a : Word} (lo : 1 ≤ (exp32 a).toNat) (hi : (exp32 a).toNat ≤ 142)
include lo hi

/-- R62: below overflow the magnitude bits are the truncated magnitude, rounded up from one half on. The clamped shifts
are no exception: they discard less than one half. -/
theorem mag16_narrow_eq_truncated :
    (mag16 (narrow a)).toNat =
      truncatedMagnitude a + (if 2 ^ discardedBits a ≤ 2 * discardedPart a then 1 else 0) := by
  obtain ⟨-, sigHi⟩ := significand32_bounds a
  have room := truncatedMagnitude_lt a hi
  have someBits : 1 ≤ discardedBits a := by
    unfold discardedBits
    split <;> omega
  rw [discardedPart, ← roundBit_eq_ite someBits]
  rw [truncatedMagnitude] at room ⊢
  rcases Nat.lt_or_ge 112 (exp32 a).toNat with normal | underflow
  · have hd : discardedBits a = 13 := if_pos normal
    rw [narrow_of_normalRange normal hi, mag16_join16, normalMagnitude_eq, BitVec.toNat_ofNat]
    rw [hd, significand32] at room ⊢
    omega
  · have hd : discardedBits a = 126 - (exp32 a).toNat := if_neg (by omega)
    rw [narrow_of_underflow lo underflow, mag16_join16, ← hd, underflowMagnitude_eq _ sigHi, BitVec.toNat_ofNat]
    generalize significand32 a / 2 ^ discardedBits a = retained at room ⊢
    omega

/-- One retained unit, in the units of binary32. -/
theorem discarded_shift : 2 ^ discardedBits a * 2 ^ ((exp32 a).toNat - 1) = 2 ^ ((exp32 a).toNat - 113) * 2 ^ 125 := by
  rw [← Nat.pow_add, ← Nat.pow_add]
  congr 1
  unfold discardedBits
  split <;> omega

/-- A magnitude is its truncated one and the discarded part. -/
theorem units32_eq_truncated_add :
    units32 a = unitsOf 10 (truncatedMagnitude a) * 2 ^ 125 + discardedPart a * 2 ^ ((exp32 a).toNat - 1) := by
  have parts : significand32 a = significand32 a / 2 ^ discardedBits a * 2 ^ discardedBits a + discardedPart a :=
    (Nat.div_add_mod' _ _).symm
  calc units32 a
      = significand32 a * 2 ^ ((exp32 a).toNat - 1) := units32_eq_significand lo
    _ = (significand32 a / 2 ^ discardedBits a * 2 ^ discardedBits a + discardedPart a) *
          2 ^ ((exp32 a).toNat - 1) := by rw [← parts]
    _ = significand32 a / 2 ^ discardedBits a * (2 ^ discardedBits a * 2 ^ ((exp32 a).toNat - 1)) +
          discardedPart a * 2 ^ ((exp32 a).toNat - 1) := by ring
    _ = _ := by rw [discarded_shift lo hi, unitsOf_truncatedMagnitude]; ring

/-- One more in the last retained place, in the units of binary32. -/
theorem unitsOf_truncatedMagnitude_succ_eq_add :
    unitsOf 10 (truncatedMagnitude a + 1) * 2 ^ 125 =
      unitsOf 10 (truncatedMagnitude a) * 2 ^ 125 + 2 ^ discardedBits a * 2 ^ ((exp32 a).toNat - 1) := by
  rw [discarded_shift lo hi, unitsOf_truncatedMagnitude_succ, unitsOf_truncatedMagnitude]
  ring

/-- What is discarded is less than one unit, so the magnitude lies below the next binary16 one. -/
theorem units32_lt_succ : units32 a < unitsOf 10 (truncatedMagnitude a + 1) * 2 ^ 125 := by
  rw [units32_eq_truncated_add lo hi, unitsOf_truncatedMagnitude_succ_eq_add lo hi]
  exact Nat.add_lt_add_left
    (Nat.mul_lt_mul_of_pos_right (Nat.mod_lt _ (by positivity)) (by positivity)) _

/-- A magnitude lies beyond the halfway point by what is discarded beyond one half. -/
theorem two_mul_units32_add :
    2 * units32 a + 2 ^ discardedBits a * 2 ^ ((exp32 a).toNat - 1) =
      2 * halfway (truncatedMagnitude a) (truncatedMagnitude a + 1) +
        2 * discardedPart a * 2 ^ ((exp32 a).toNat - 1) := by
  have next := unitsOf_truncatedMagnitude_succ_eq_add lo hi
  rw [units32_eq_truncated_add lo hi, halfway]
  linarith

/-- At least one half is discarded exactly when the magnitude reaches the halfway point. -/
theorem halfway_le_units32_iff :
    halfway (truncatedMagnitude a) (truncatedMagnitude a + 1) ≤ units32 a ↔
      2 ^ discardedBits a ≤ 2 * discardedPart a := by
  have balance := two_mul_units32_add lo hi
  rw [← Nat.mul_le_mul_right_iff (n := 2 ^ discardedBits a) (Nat.two_pow_pos ((exp32 a).toNat - 1))]
  omega

/-- Exactly one half is discarded when the magnitude is the halfway point. -/
theorem units32_eq_halfway_iff :
    units32 a = halfway (truncatedMagnitude a) (truncatedMagnitude a + 1) ↔
      2 * discardedPart a = 2 ^ discardedBits a := by
  have balance := two_mul_units32_add lo hi
  rw [← Nat.mul_left_inj (b := 2 * discardedPart a) (Nat.two_pow_pos ((exp32 a).toNat - 1)).ne']
  omega

end

/-! ### Which magnitude NARROW gives -/

/-- Rounding a number that lies from `t` on and below `t + 1`, up exactly from their halfway point on, gives the number
of halfway points that it reaches. -/
theorem lt_rounded_iff {t u : ℕ} (above : unitsOf 10 t * 2 ^ 125 ≤ u) (below : u < unitsOf 10 (t + 1) * 2 ^ 125)
    (j : ℕ) : j < t + (if halfway t (t + 1) ≤ u then 1 else 0) ↔ halfway j (j + 1) ≤ u := by
  rw [← halfway_self] at above below
  rcases Nat.lt_trichotomy j t with hj | rfl | hj
  · have reached : halfway j (j + 1) ≤ u := (halfway_le_halfway hj.le hj).trans above
    simp only [reached, iff_true]
    omega
  · split <;> simp_all
  · have unreached : u < halfway j (j + 1) := below.trans_le (halfway_le_halfway hj (by omega))
    simp only [unreached.not_ge, iff_false]
    split <;> omega

theorem units32_lt_unitsOf {a : Word} {x : ℕ} : units32 a < unitsOf 23 x ↔ (mag32 a).toNat < x :=
  (unitsOf_strictMono 23).lt_iff_lt

theorem unitsOf_le_units32 {a : Word} {x : ℕ} : unitsOf 23 x ≤ units32 a ↔ x ≤ (mag32 a).toNat :=
  (unitsOf_strictMono 23).le_iff_le

theorem class32_ne_nan_iff (a : Word) : class32 a ≠ .nan ↔ (mag32 a).toNat ≤ 0x7F800000 := by
  have hE := (exp32 a).isLt
  rw [Ne, class32_eq_fieldClass, fieldClass_eq_nan_iff _ _ (by decide), mag32_eq_fields]
  omega

@[simp] theorem mag16_inf16 (s : Bit) : (mag16 (inf16 s)).toNat = 0x7C00 := by
  rw [inf16, mag16_join16]
  rfl

@[simp] theorem mag16_zero16 (s : Bit) : (mag16 (zero16 s)).toNat = 0 := by
  rw [zero16, mag16_join16]
  rfl

/-- The branches of R50 that a non-NaN can take, those that retain bits taken together. -/
theorem narrow_cases {a : Word} (notNaN : class32 a ≠ .nan) :
    ((exp32 a).toNat = 0 ∧ narrow a = zero16 (sign32 a)) ∨
    (1 ≤ (exp32 a).toNat ∧ (exp32 a).toNat ≤ 142 ∧ sign16 (narrow a) = sign32 a) ∨
    (143 ≤ (exp32 a).toNat ∧ narrow a = inf16 (sign32 a)) := by
  rw [class32_ne_nan_iff, mag32_eq_fields] at notNaN
  obtain zero | underflow | normal | overflow | infinity :
      (exp32 a).toNat = 0 ∨ (1 ≤ (exp32 a).toNat ∧ (exp32 a).toNat ≤ 112) ∨
      (113 ≤ (exp32 a).toNat ∧ (exp32 a).toNat ≤ 142) ∨ (143 ≤ (exp32 a).toNat ∧ (exp32 a).toNat ≤ 254) ∨
      ((exp32 a).toNat = 255 ∧ (man32 a).toNat = 0) := by omega
  · exact .inl ⟨zero, narrow_of_exp_zero (BitVec.eq_of_toNat_eq zero)⟩
  · obtain ⟨lo, hi⟩ := underflow
    exact .inr (.inl ⟨lo, by omega, by rw [narrow_of_underflow lo hi, sign16_join16]⟩)
  · obtain ⟨lo, hi⟩ := normal
    exact .inr (.inl ⟨by omega, hi, by rw [narrow_of_normalRange lo hi, sign16_join16]⟩)
  · obtain ⟨lo, hi⟩ := overflow
    exact .inr (.inr ⟨lo, narrow_of_overflow lo hi⟩)
  · obtain ⟨hE, hM⟩ := infinity
    exact .inr (.inr ⟨by omega, narrow_of_infinity (BitVec.eq_of_toNat_eq hE) (BitVec.eq_of_toNat_eq hM)⟩)

/-- R62 in whole numbers: the magnitude bits of the result count the halfway points, up to the overflow threshold, that
the magnitude reaches. -/
theorem lt_mag16_narrow_iff {a : Word} (notNaN : class32 a ≠ .nan) {j : ℕ} (hj : j < 0x7C00) :
    j < (mag16 (narrow a)).toNat ↔ halfway j (j + 1) ≤ units32 a := by
  have hM := (man32 a).isLt
  obtain ⟨zero, h⟩ | ⟨lo, hi, -⟩ | ⟨overflow, h⟩ := narrow_cases notNaN
  · have small : units32 a < halfway 0 1 :=
      show units32 a < unitsOf 23 0x33000000 by
        rw [units32_lt_unitsOf, mag32_eq_fields]
        omega
    have unreached : ¬ halfway j (j + 1) ≤ units32 a :=
      (small.trans_le (halfway_le_halfway (Nat.zero_le j) (by omega))).not_ge
    simp [h, unreached]
  · have above := Nat.le.intro (units32_eq_truncated_add lo hi).symm
    rw [mag16_narrow_eq_truncated lo hi, ← lt_rounded_iff above (units32_lt_succ lo hi)]
    simp only [halfway_le_units32_iff lo hi]
  · have large : halfway 0x7C00 0x7C00 ≤ units32 a :=
      show unitsOf 23 0x47800000 ≤ units32 a by
        rw [unitsOf_le_units32, mag32_eq_fields]
        omega
    have reached : halfway j (j + 1) ≤ units32 a := (halfway_le_halfway hj.le hj).trans large
    simp [h, hj, reached]

/-- No non-NaN gives a magnitude above infinity's. -/
theorem mag16_narrow_le {a : Word} (notNaN : class32 a ≠ .nan) : (mag16 (narrow a)).toNat ≤ 0x7C00 := by
  obtain ⟨-, h⟩ | ⟨lo, hi, -⟩ | ⟨-, h⟩ := narrow_cases notNaN
  · simp [h]
  · have := truncatedMagnitude_lt a hi
    rw [mag16_narrow_eq_truncated lo hi]
    split <;> omega
  · simp [h]

/-- R64: every non-NaN keeps its sign. -/
theorem sign16_narrow {a : Word} (notNaN : class32 a ≠ .nan) : sign16 (narrow a) = sign32 a := by
  obtain ⟨-, h⟩ | ⟨-, -, h⟩ | ⟨-, h⟩ := narrow_cases notNaN
  · rw [h, zero16, sign16_join16]
  · exact h
  · rw [h, inf16, sign16_join16]

/-! ### The statements -/

/-- Settles O35: the exponent fields 102 to 142 are among those that retain bits. -/
theorem narrowRoundsUpExactlyFromOneHalf : Obligations.NarrowRoundsUpExactlyFromOneHalf :=
  fun _ lo hi => mag16_narrow_eq_truncated (by omega) hi

/-- Settles O38: the larger magnitude reaches every halfway point that the smaller one reaches. -/
theorem narrowIsMonotoneInMagnitude : Obligations.NarrowIsMonotoneInMagnitude := by
  intro a b hb hab
  have ha : class32 a ≠ .nan := by
    rw [class32_ne_nan_iff] at *
    exact hab.trans hb
  by_contra! reversed
  have hj : (mag16 (narrow b)).toNat < 0x7C00 := reversed.trans_le (mag16_narrow_le ha)
  have reached := (lt_mag16_narrow_iff ha hj).mp reversed
  have further : units32 a ≤ units32 b := (unitsOf_strictMono 23).monotone hab
  exact lt_irrefl _ ((lt_mag16_narrow_iff hb hj).mpr (reached.trans further))

/-- R64: the largest finite magnitude is exceeded from 0x477FF000 (65520) on. -/
theorem overflow_iff {a : Word} (notNaN : class32 a ≠ .nan) :
    0x7C00 ≤ (mag16 (narrow a)).toNat ↔ 0x477FF000 ≤ (mag32 a).toNat := by
  rw [← unitsOf_le_units32]
  exact lt_mag16_narrow_iff notNaN (by decide : 0x7BFF < 0x7C00)

/-- R64: a nonzero magnitude is reached from 0x33000000 (2^-25) on. -/
theorem mag16_narrow_pos_iff {a : Word} (notNaN : class32 a ≠ .nan) :
    0 < (mag16 (narrow a)).toNat ↔ 0x33000000 ≤ (mag32 a).toNat := by
  rw [← unitsOf_le_units32]
  exact lt_mag16_narrow_iff notNaN (by decide : 0 < 0x7C00)

theorem class16_eq_zero_iff (h : Half) : class16 h = .zero ↔ (mag16 h).toNat = 0 := by
  obtain ⟨zero, -⟩ := binary16ClassesAreTheTabledRanges h
  exact zero.trans BitVec.toNat_inj.symm

theorem class16_eq_infinity_iff (h : Half) : class16 h = .infinity ↔ (mag16 h).toNat = 0x7C00 := by
  obtain ⟨-, -, -, -, -, -, -, infinity, -⟩ := binary16ClassesAreTheTabledRanges h
  exact infinity

theorem class16_eq_nan_iff (h : Half) : class16 h = .nan ↔ 0x7C01 ≤ (mag16 h).toNat := by
  obtain ⟨-, -, -, -, -, -, -, -, nan⟩ := binary16ClassesAreTheTabledRanges h
  have := (mag16 h).isLt
  rw [nan]
  omega

/-- R56, by the class of the operand. -/
theorem narrow_of_class_nan {a : Word} (nan : class32 a = .nan) : narrow a = canonicalNaN16 := by
  obtain ⟨-, -, -, -, nanFields, -⟩ := binary32ClassesAreTheTabledRanges a
  obtain ⟨he, hm⟩ := nanFields.mp nan
  exact narrow_of_nan he hm

theorem class32_eq_infinity_iff (a : Word) : class32 a = .infinity ↔ (mag32 a).toNat = 0x7F800000 := by
  obtain ⟨-, -, -, -, -, -, -, infinity, -⟩ := binary32ClassesAreTheTabledRanges a
  exact infinity

/-- R64 for bit 15: it is the sign. -/
theorem narrow_getLsbD_15 {a : Word} (notNaN : class32 a ≠ .nan) : (narrow a).getLsbD 15 = a.getLsbD 31 := by
  obtain ⟨bit15, -⟩ := binary16FieldsAreWhereTheLayoutPutsThem (narrow a)
  obtain ⟨bit31, -⟩ := binary32FieldsAreWhereTheLayoutPutsThem a
  rw [← bit15, ← bit31, sign16_narrow notNaN]

/-- Settles O37: for a NaN the result is known; otherwise infinity and zero are the ends of the result's range, beyond
the last halfway point and below the first. -/
theorem narrowResultClasses : Obligations.NarrowResultClasses := by
  intro a
  rw [class16_eq_nan_iff, class16_eq_infinity_iff, class16_eq_zero_iff]
  by_cases nan : class32 a = .nan
  · have above : ¬ (mag32 a).toNat ≤ 0x7F800000 := fun h => (class32_ne_nan_iff a).mpr h nan
    have hmag : (mag16 canonicalNaN16).toNat = 0x7E00 := by decide
    rw [narrow_of_class_nan nan, hmag]
    simp only [nan, canonicalNaN16, ne_eq, not_true_eq_false, false_implies, iff_true, implies_true, true_and]
    omega
  · have finite := mag16_narrow_le nan
    have hM := (man32 a).isLt
    have fields := mag32_eq_fields a
    have inRange := (class32_ne_nan_iff a).mp nan
    have hinf := overflow_iff nan
    have hpos := mag16_narrow_pos_iff nan
    refine ⟨iff_of_false (by omega) nan, fun h => absurd h nan, narrow_getLsbD_15, fun _ => ?_, by omega⟩
    rw [class32_eq_infinity_iff]
    omega

end Sys2Proof.Machine

/-! PROOFS. NARROW's rounding by values (R62, R63; R34, log entry 10): the values of the two formats on the scale of the
whole numbers above, and the nearest of them. -/

namespace Sys2Proof.Machine

/-! ### Values as signed magnitudes -/

/-- The magnitude of the binary16 magnitude bits `i`, as a value. -/
def halfValue (i : ℕ) : ℚ := unitsOf 10 i * 2 ^ (-24 : ℤ)

/-- The magnitude of a binary32 pattern, as a value. -/
def magnitude32 (a : Word) : ℚ := units32 a * 2 ^ (-149 : ℤ)

theorem halfValue_strictMono : StrictMono halfValue := fun _ _ h =>
  mul_lt_mul_of_pos_right (Nat.cast_lt.mpr (unitsOf_strictMono 10 h)) (by positivity)

theorem halfValue_nonneg (i : ℕ) : 0 ≤ halfValue i := by
  unfold halfValue
  positivity

theorem magnitude32_nonneg (a : Word) : 0 ≤ magnitude32 a := by
  unfold magnitude32
  positivity

/-- R34: binary32 patterns below infinity have the value of their sign and magnitude. -/
theorem value32_eq_some_iff {a : Word} {v : ℚ} :
    value32 a = some v ↔ (mag32 a).toNat < 0x7F800000 ∧ signFactor (sign32 a) * magnitude32 a = v := by
  have hE := (exp32 a).isLt
  have hM := (man32 a).isLt
  have finite : exp32 a = 255#8 ↔ ¬ (mag32 a).toNat < 0x7F800000 := by
    rw [← BitVec.toNat_inj, BitVec.toNat_ofNat, mag32_eq_fields]
    omega
  have units : fpValue 127 23 (sign32 a) (exp32 a).toNat (man32 a).toNat =
      signFactor (sign32 a) * magnitude32 a := by
    rw [fpValue_eq_units, magnitude32, units32, mag32_eq_fields, unitsOf_fields hM, mul_assoc]
    norm_num
  rw [value32, units]
  by_cases h : exp32 a = 255#8
  · simp [h, finite.mp h]
  · simp [h, not_not.mp (finite.not.mp h)]

/-- R34: binary16 patterns below infinity have the value of their sign and magnitude. -/
theorem value16_eq_some_iff {h : Half} {v : ℚ} :
    value16 h = some v ↔ (mag16 h).toNat < 0x7C00 ∧ signFactor (sign16 h) * halfValue (mag16 h).toNat = v := by
  have hE := (exp16 h).isLt
  have hM := (man16 h).isLt
  have finite : exp16 h = 31#5 ↔ ¬ (mag16 h).toNat < 0x7C00 := by
    rw [← BitVec.toNat_inj, BitVec.toNat_ofNat, mag16_eq_fields]
    omega
  have units : fpValue 15 10 (sign16 h) (exp16 h).toNat (man16 h).toNat =
      signFactor (sign16 h) * halfValue (mag16 h).toNat := by
    rw [fpValue_eq_units, halfValue, mag16_eq_fields, unitsOf_fields hM, mul_assoc]
    norm_num
  rw [value16, units]
  by_cases h' : exp16 h = 31#5
  · simp [h', finite.mp h']
  · simp [h', not_not.mp (finite.not.mp h')]

theorem abs_signFactor_mul (s : Bit) {x : ℚ} (hx : 0 ≤ x) : |signFactor s * x| = x := by
  rcases signFactor_cases s with h | h <;> simp [h, abs_of_nonneg hx]

/-- Values of one sign are as far apart as their magnitudes. -/
theorem abs_signFactor_mul_sub (s : Bit) (x y : ℚ) : |signFactor s * x - signFactor s * y| = |x - y| := by
  rw [← mul_sub, abs_mul]
  rcases signFactor_cases s with h | h <;> simp [h]

/-- Values are at least as far apart as their magnitudes. -/
theorem abs_sub_le_abs_signFactor_mul_sub (s s' : Bit) {x y : ℚ} (hx : 0 ≤ x) (hy : 0 ≤ y) :
    |x - y| ≤ |signFactor s * x - signFactor s' * y| := by
  have := abs_abs_sub_abs_le (signFactor s * x) (signFactor s' * y)
  rwa [abs_signFactor_mul s hx, abs_signFactor_mul s' hy] at this

/-- The magnitude of a finite pattern's value. -/
theorem abs_value32 {a : Word} {v : ℚ} (hv : value32 a = some v) : |v| = magnitude32 a := by
  obtain ⟨-, rfl⟩ := value32_eq_some_iff.mp hv
  exact abs_signFactor_mul _ (magnitude32_nonneg a)

theorem class32_ne_nan_of_value {a : Word} {v : ℚ} (hv : value32 a = some v) : class32 a ≠ .nan := by
  obtain ⟨finite, -⟩ := value32_eq_some_iff.mp hv
  exact (class32_ne_nan_iff a).mpr finite.le

/-- Binary32 magnitudes are compared as whole numbers. -/
theorem le_magnitude32_iff {a : Word} {x : ℕ} :
    unitsOf 23 x * 2 ^ (-149 : ℤ) ≤ magnitude32 a ↔ x ≤ (mag32 a).toNat := by
  rw [magnitude32, mul_le_mul_iff_left₀ (by positivity), Nat.cast_le, unitsOf_le_units32]

/-- Settles O26: the magnitude bits are below those of 2^-126, the smallest normal. -/
theorem narrowFlushesSubnormals : Obligations.NarrowFlushesSubnormals := by
  intro a s he hm
  have hmag : (mag32 a).toNat < 0x00800000 := by
    have hM := (man32 a).isLt
    rw [mag32_eq_fields, he]
    simpa using hM
  refine ⟨exec_narrow_of_eq (narrow_of_exp_zero he) s, _, value32_eq_some_iff.mpr ⟨by omega, rfl⟩, ?_⟩
  rw [abs_signFactor_mul _ (magnitude32_nonneg a)]
  have smallest : (2 : ℚ) ^ (-126 : ℤ) = unitsOf 23 0x00800000 * 2 ^ (-149 : ℤ) := by
    norm_num [unitsOf, magnitudeUnits]
  rw [smallest, ← not_le, le_magnitude32_iff]
  omega

theorem class32_eq_normal_iff (a : Word) :
    class32 a = .normal ↔ 1 ≤ (exp32 a).toNat ∧ (exp32 a).toNat ≤ 254 := by
  obtain ⟨-, -, normal, -⟩ := binary32ClassesAreTheTabledRanges a
  exact normal

/-- R58's condition on the rebiased exponent, on the exponent field. -/
theorem overflows_iff (e : ℕ) : 31 ≤ rebiasNarrow e ↔ 143 ≤ e := by
  rw [rebiasNarrow_eq]
  omega

/-- Settles O30: 65536 is the magnitude with the exponent field 143 and no mantissa bits. -/
theorem narrowOverflowsToSignedInfinity : Obligations.NarrowOverflowsToSignedInfinity := by
  refine ⟨fun a s normal large => ?_, fun a normal => ⟨overflows_iff _, ?_⟩, by decide, by decide⟩
  · obtain ⟨-, hi⟩ := (class32_eq_normal_iff a).mp normal
    exact exec_narrow_of_eq (narrow_of_overflow ((overflows_iff _).mp large) hi) s
  · obtain ⟨-, hi⟩ := (class32_eq_normal_iff a).mp normal
    have hM := (man32 a).isLt
    have fields := mag32_eq_fields a
    have bound : (65536 : ℚ) = unitsOf 23 0x47800000 * 2 ^ (-149 : ℤ) := by
      norm_num [unitsOf, magnitudeUnits]
    refine ⟨_, value32_eq_some_iff.mpr ⟨by omega, rfl⟩, ?_⟩
    rw [abs_signFactor_mul _ (magnitude32_nonneg a), bound, le_magnitude32_iff]
    omega

/-! ### The nearest binary16 magnitude -/

/-- Of two numbers the larger is the nearer one from their midpoint on. -/
theorem abs_sub_le_abs_sub_iff {x y z : ℚ} (hxy : x < y) : |y - z| ≤ |x - z| ↔ x + y ≤ 2 * z := by
  rw [← sq_le_sq]
  constructor
  · intro h
    nlinarith
  · intro h
    nlinarith

/-- Of two numbers each is as near as the other at their midpoint. -/
theorem abs_sub_eq_abs_sub_iff {x y z : ℚ} (hxy : x < y) : |y - z| = |x - z| ↔ x + y = 2 * z := by
  rw [abs_eq_abs]
  constructor
  · rintro (h | h) <;> linarith
  · exact fun h => Or.inr (by linarith)

/-- The midpoint of two binary16 values in the units of binary32. -/
theorem halfValue_add (i j : ℕ) : halfValue i + halfValue j = 2 * (halfway i j * 2 ^ (-149 : ℤ)) := by
  unfold halfValue halfway
  push_cast
  norm_num
  ring

section
variable {a : Word} {i j : ℕ} (hij : i < j)
include hij

/-- The larger of two binary16 magnitudes is the nearer one from their halfway point on. -/
theorem larger_nearer_iff :
    |halfValue j - magnitude32 a| ≤ |halfValue i - magnitude32 a| ↔ halfway i j ≤ units32 a := by
  rw [abs_sub_le_abs_sub_iff (halfValue_strictMono hij), halfValue_add, magnitude32, mul_le_mul_iff_right₀ two_pos,
    mul_le_mul_iff_left₀ (by positivity), Nat.cast_le]

/-- Two binary16 magnitudes are equally near at their halfway point alone. -/
theorem equally_near_iff :
    |halfValue j - magnitude32 a| = |halfValue i - magnitude32 a| ↔ halfway i j = units32 a := by
  rw [abs_sub_eq_abs_sub_iff (halfValue_strictMono hij), halfValue_add, magnitude32, mul_right_inj' two_ne_zero,
    mul_left_inj' (by positivity), Nat.cast_inj]

end

/-- R63's overflow threshold 65520 is the halfway point between the largest finite magnitude and infinity's. -/
theorem threshold_le_magnitude32_iff {a : Word} (notNaN : class32 a ≠ .nan) :
    65520 ≤ magnitude32 a ↔ 0x7C00 ≤ (mag16 (narrow a)).toNat := by
  have bound : (65520 : ℚ) = unitsOf 23 0x477FF000 * 2 ^ (-149 : ℤ) := by
    norm_num [unitsOf, magnitudeUnits]
  rw [bound, le_magnitude32_iff, overflow_iff notNaN]

/-- A binary16 pattern is its sign and its magnitude bits. -/
theorem half_ext {g h : Half} (hsign : sign16 g = sign16 h) (hmag : (mag16 g).toNat = (mag16 h).toNat) : g = h := by
  rw [← BitVec.toNat_inj, sign16_toNat, sign16_toNat] at hsign
  rw [mag16_toNat, mag16_toNat] at hmag
  apply BitVec.eq_of_toNat_eq
  omega

/-- A significand has 24 bits, so shifts of 25 and more discard less than one half. -/
theorem exp_ge_of_half {a : Word} (half : 2 * discardedPart a = 2 ^ discardedBits a) : 102 ≤ (exp32 a).toNat := by
  obtain ⟨-, sigHi⟩ := significand32_bounds a
  by_contra! small
  have hd : discardedBits a = 126 - (exp32 a).toNat := if_neg (by omega)
  have part : discardedPart a ≤ significand32 a := Nat.mod_le _ _
  have unit : 2 ^ 25 ≤ 2 ^ discardedBits a := Nat.pow_le_pow_right (by decide) (by omega)
  omega

section
variable {a : Word} (notNaN : class32 a ≠ .nan)
include notNaN

/-- From the overflow threshold on the result is infinity. -/
theorem narrow_eq_inf16_of_threshold_le (large : 65520 ≤ magnitude32 a) : narrow a = inf16 (sign32 a) := by
  have top := mag16_narrow_le notNaN
  rw [threshold_le_magnitude32_iff notNaN] at large
  refine half_ext ?_ ?_
  · rw [sign16_narrow notNaN, inf16, sign16_join16]
  · rw [mag16_inf16]
    omega

/-- Below the overflow threshold the result is finite, with a value of the operand's sign. -/
theorem value16_narrow (small : magnitude32 a < 65520) :
    value16 (narrow a) = some (signFactor (sign32 a) * halfValue (mag16 (narrow a)).toNat) := by
  rw [← not_le, threshold_le_magnitude32_iff notNaN, not_le] at small
  exact value16_eq_some_iff.mpr ⟨small, by rw [sign16_narrow notNaN]⟩

/-- The magnitude is at the halfway point, or beyond, from every binary16 magnitude below the result's. -/
theorem halfway_le_of_lt {i : ℕ} (hi : i < (mag16 (narrow a)).toNat) :
    halfway i (mag16 (narrow a)).toNat ≤ units32 a := by
  have top := mag16_narrow_le notNaN
  have reached := (lt_mag16_narrow_iff notNaN (j := (mag16 (narrow a)).toNat - 1) (by omega)).mp (by omega)
  rw [Nat.sub_add_cancel (by omega)] at reached
  exact (halfway_le_halfway (by omega) le_rfl).trans reached

/-- The magnitude is below the halfway point to every binary16 magnitude above the result's. -/
theorem lt_halfway_of_lt {j : ℕ} (above : (mag16 (narrow a)).toNat < j) (hj : j < 0x7C00) :
    units32 a < halfway (mag16 (narrow a)).toNat j := by
  have unreached := (lt_mag16_narrow_iff notNaN (above.trans hj)).not.mp (lt_irrefl _)
  exact (not_le.mp unreached).trans_le (halfway_le_halfway le_rfl above)

/-- R62 for magnitudes: no finite binary16 magnitude is nearer than the result's, and none as near is larger. -/
theorem narrow_nearest {j : ℕ} (hj : j < 0x7C00) :
    |halfValue (mag16 (narrow a)).toNat - magnitude32 a| ≤ |halfValue j - magnitude32 a| ∧
      (|halfValue j - magnitude32 a| = |halfValue (mag16 (narrow a)).toNat - magnitude32 a| →
        j ≤ (mag16 (narrow a)).toNat) := by
  rcases Nat.lt_trichotomy j (mag16 (narrow a)).toNat with below | same | above
  · exact ⟨(larger_nearer_iff below).mpr (halfway_le_of_lt notNaN below), fun _ => below.le⟩
  · rw [← same]
    exact ⟨le_rfl, fun _ => le_rfl⟩
  · have farther := (larger_nearer_iff (a := a) above).not.mpr (lt_halfway_of_lt notNaN above hj).not_ge
    exact ⟨(not_le.mp farther).le, fun h => absurd h.le farther⟩

/-- R63's ties are those where the result was rounded up, from a magnitude with the last bit 0, at the halfway
point. -/
theorem tieEvenBelow_iff :
    TieEvenBelow a ↔ ∃ k, k % 2 = 0 ∧ (mag16 (narrow a)).toNat = k + 1 ∧ halfway k (k + 1) = units32 a := by
  constructor
  · rintro ⟨lo, hi, half, even⟩
    refine ⟨truncatedMagnitude a, even, ?_, ((units32_eq_halfway_iff (by omega) hi).mpr half).symm⟩
    rw [mag16_narrow_eq_truncated (by omega) hi, if_pos half.ge]
  · rintro ⟨k, even, hmag, tie⟩
    obtain ⟨-, h⟩ | ⟨lo, hi, -⟩ | ⟨-, h⟩ := narrow_cases notNaN
    · simp [h] at hmag
    · have above := Nat.le.intro (units32_eq_truncated_add lo hi).symm
      have hround := mag16_narrow_eq_truncated lo hi
      rw [hmag] at hround
      split at hround
      · obtain rfl : k = truncatedMagnitude a := by omega
        have half := (units32_eq_halfway_iff lo hi).mp tie.symm
        exact ⟨exp_ge_of_half half, hi, half, even⟩
      · have notBelow : halfway (k + 1) (k + 1) ≤ halfway k (k + 1) := by
          rw [tie, hround, Nat.add_zero, halfway_self]
          exact above
        exact absurd notBelow (halfway_lt_halfway (Nat.lt_succ_self k)).not_ge
    · rw [h, mag16_inf16] at hmag
      omega

end

/-! ### The statements -/

/-- Settles O34: distances of values are at least those of their magnitudes, and equal for values of one sign, so the
nearest magnitude under the operand's sign is the nearest value. -/
theorem narrowRoundsToNearestTiesAway : Obligations.NarrowRoundsToNearestTiesAway := by
  intro a v hv
  have notNaN := class32_ne_nan_of_value hv
  rw [abs_value32 hv]
  refine ⟨fun small => ⟨_, value16_narrow notNaN small, fun g u hu => ?_⟩,
    narrow_eq_inf16_of_threshold_le notNaN, sign16_narrow notNaN⟩
  obtain ⟨-, rfl⟩ := value32_eq_some_iff.mp hv
  obtain ⟨finite, rfl⟩ := value16_eq_some_iff.mp hu
  obtain ⟨nearest, tie⟩ := narrow_nearest notNaN finite
  have apart := abs_sub_le_abs_signFactor_mul_sub (sign16 g) (sign32 a) (halfValue_nonneg (mag16 g).toNat)
    (magnitude32_nonneg a)
  rw [abs_signFactor_mul_sub, abs_signFactor_mul _ (halfValue_nonneg _), abs_signFactor_mul _ (halfValue_nonneg _)]
  refine ⟨nearest.trans apart, fun equal => ?_⟩
  exact halfValue_strictMono.monotone (tie (le_antisymm (apart.trans equal.le) nearest))

/-- What rounding to nearest with ties to even says of the magnitude bits of a result of the operand's sign. -/
theorem nearestTiesEven_magnitude {a : Word} {g : Half} (hsign : sign16 g = sign32 a)
    (nearest : NearestTiesEven (signFactor (sign32 a) * magnitude32 a) g) :
    (mag16 g).toNat < 0x7C00 ∧ ∀ j < 0x7C00,
      |halfValue (mag16 g).toNat - magnitude32 a| ≤ |halfValue j - magnitude32 a| ∧
      (|halfValue j - magnitude32 a| = |halfValue (mag16 g).toNat - magnitude32 a| → j ≠ (mag16 g).toNat →
        (mag16 g).toNat % 2 = 0) := by
  obtain ⟨w, hw, nearest⟩ := nearest
  obtain ⟨finite, rfl⟩ := value16_eq_some_iff.mp hw
  refine ⟨finite, fun j hj => ?_⟩
  have hmag : (mag16 (join16 (sign32 a) (BitVec.ofNat 15 j))).toNat = j := by
    rw [mag16_join16, BitVec.toNat_ofNat]
    omega
  have value : value16 (join16 (sign32 a) (BitVec.ofNat 15 j)) = some (signFactor (sign32 a) * halfValue j) :=
    value16_eq_some_iff.mpr ⟨by rwa [hmag], by rw [hmag, sign16_join16]⟩
  obtain ⟨near, even⟩ := nearest _ _ value
  rw [hsign, abs_signFactor_mul_sub, abs_signFactor_mul_sub] at near even
  refine ⟨near, fun equal ne => ?_⟩
  have hne : signFactor (sign32 a) * halfValue j ≠ signFactor (sign32 a) * halfValue (mag16 g).toNat := by
    intro same
    have := congrArg abs same
    rw [abs_signFactor_mul _ (halfValue_nonneg _), abs_signFactor_mul _ (halfValue_nonneg _)] at this
    exact ne (halfValue_strictMono.injective this)
  have last := even equal hne
  rw [mag16_toNat]
  omega

/-- R63 below the overflow threshold: ties to even gives NARROW's magnitude, or at a tie whose even neighbour is the
smaller one, one less. -/
theorem mag16_of_nearestTiesEven {a : Word} {g : Half} (notNaN : class32 a ≠ .nan) (small : magnitude32 a < 65520)
    (hsign : sign16 g = sign32 a) (nearest : NearestTiesEven (signFactor (sign32 a) * magnitude32 a) g) :
    (¬ TieEvenBelow a → (mag16 (narrow a)).toNat = (mag16 g).toNat) ∧
    (TieEvenBelow a → (mag16 (narrow a)).toNat = (mag16 g).toNat + 1) := by
  obtain ⟨finite, near⟩ := nearestTiesEven_magnitude hsign nearest
  have finite' : (mag16 (narrow a)).toNat < 0x7C00 := by
    rwa [← not_le, threshold_le_magnitude32_iff notNaN, not_le] at small
  obtain ⟨nearest, larger⟩ := narrow_nearest notNaN finite
  obtain ⟨nearest', even⟩ := near _ finite'
  have equal := le_antisymm nearest nearest'
  rcases (larger equal.symm).eq_or_lt with same | below
  · refine ⟨fun _ => same.symm, fun tie => ?_⟩
    obtain ⟨k, hk, hmag, tie⟩ := (tieEvenBelow_iff notNaN).mp tie
    have equal' := (equally_near_iff (Nat.lt_succ_self k)).mpr tie
    obtain ⟨-, even⟩ := near k (by omega)
    have last := even (by rw [same, hmag, equal']) (by omega)
    omega
  · have tie := (equally_near_iff below).mp equal
    have next : (mag16 (narrow a)).toNat = (mag16 g).toNat + 1 := by
      by_contra ne
      have between : (mag16 g).toNat < (mag16 (narrow a)).toNat - 1 := by omega
      have reached := halfway_le_of_lt notNaN (i := (mag16 (narrow a)).toNat - 1) (by omega)
      rw [← tie] at reached
      exact absurd reached (halfway_lt_halfway between).not_ge
    have isTie : TieEvenBelow a :=
      (tieEvenBelow_iff notNaN).mpr ⟨_, even equal below.ne', next, next ▸ tie⟩
    exact ⟨fun notTie => absurd isTie notTie, fun _ => next⟩

/-- An operand that overflows is no tie above an even neighbour: the neighbour below infinity is odd. -/
theorem not_tieEvenBelow_of_overflow {a : Word} (notNaN : class32 a ≠ .nan)
    (overflow : 0x7C00 ≤ (mag16 (narrow a)).toNat) : ¬ TieEvenBelow a := by
  have top := mag16_narrow_le notNaN
  rw [tieEvenBelow_iff notNaN]
  rintro ⟨k, even, hmag, -⟩
  omega

/-- Settles O36: from the overflow threshold on both give infinity, and below it both are nearest to the operand's
value, so that they differ where two values are nearest and the even one is the smaller. -/
theorem narrowDepartsFromIeeeAtTiesAboveEvenAlone : Obligations.NarrowDepartsFromIeeeAtTiesAboveEvenAlone := by
  intro a g notNaN ⟨hsign, ieee⟩
  have sameSign : sign16 (narrow a) = sign16 g := (sign16_narrow notNaN).trans hsign.symm
  by_cases large : 65520 ≤ magnitude32 a
  · have hg : g = inf16 (sign32 a) := by
      cases hv : value32 a with
      | none => rwa [hv] at ieee
      | some v =>
        rw [← abs_value32 hv] at large
        simpa only [hv, large, if_true] using ieee
    have notTie := not_tieEvenBelow_of_overflow notNaN ((threshold_le_magnitude32_iff notNaN).mp large)
    exact ⟨fun _ => (narrow_eq_inf16_of_threshold_le notNaN large).trans hg.symm, fun tie => absurd tie notTie⟩
  · have finite : (mag32 a).toNat < 0x7F800000 := by
      rw [threshold_le_magnitude32_iff notNaN, overflow_iff notNaN] at large
      omega
    have hv := value32_eq_some_iff.mpr ⟨finite, rfl⟩
    have nearest : NearestTiesEven (signFactor (sign32 a) * magnitude32 a) g := by
      simpa only [hv, abs_value32 hv, large, if_false] using ieee
    obtain ⟨same, oneMore⟩ := mag16_of_nearestTiesEven notNaN (not_le.mp large) hsign nearest
    exact ⟨fun notTie => half_ext sameSign (same notTie), fun tie => ⟨sameSign, oneMore tie⟩⟩

end Sys2Proof.Machine

/-! PROOFS. WIDEN branch by branch (R73 to R78, R81): the normalisation in closed form, and one equation for each branch
of R70, in terms of the fields as numbers. -/

namespace Sys2Proof.Machine

/-- What WIDEN of a request does, given the pattern it widens to (R38). -/
theorem exec_widen_of_eq {h : Half} {r : Word} (hr : widen h = r) (x : Half) (s : State) :
    exec (.widen x h) s = .next { s with y := r } := by
  subst hr
  exact exec_eq (.widen x h) s

/-! ### The normalisation loop (R74, R81) -/

section
variable {m : ℕ} (pos : m ≠ 0)
include pos

/-- R74's closed form of the loop's count: every shift moves the leading 1 up by one place, so with enough iterations
the loop ends when it has brought it from `floor(log2 M)` to bit 10. -/
theorem shiftCount_eq {fuel : ℕ} (small : m < 2 ^ 10) (enough : 10 - Nat.log2 m ≤ fuel) :
    shiftCount fuel m = 10 - Nat.log2 m := by
  have below : Nat.log2 m < 10 := (Nat.log2_lt pos).mpr small
  induction fuel generalizing m with
  | zero => omega
  | succ fuel ih =>
    have doubled : m <<< 1 = 2 * m := by rw [Nat.shiftLeft_eq, pow_one, Nat.mul_comm]
    have moved : Nat.log2 (2 * m) = Nat.log2 m + 1 := Nat.log2_two_mul pos
    have reached : 9 ≤ Nat.log2 m ↔ 2 ^ 9 ≤ m := Nat.le_log2 pos
    rw [shiftCount, doubled]
    split
    · omega
    · rw [ih (by omega) (by omega) (by omega) (by omega)]
      omega

/-- `k = 10 - floor(log2 M)` (R74). -/
theorem normShift_eq (small : m < 2 ^ 10) : normShift m = 10 - Nat.log2 m :=
  shiftCount_eq pos small (Nat.sub_le _ _)

theorem normShift_bounds (small : m < 2 ^ 10) : 1 ≤ normShift m ∧ normShift m ≤ 10 := by
  have below : Nat.log2 m < 10 := (Nat.log2_lt pos).mpr small
  rw [normShift_eq pos small]
  omega

/-- The normalised mantissa has its leading 1 at bit 10 (R74). -/
theorem mul_normShift_bounds (small : m < 2 ^ 10) :
    2 ^ 10 ≤ m * 2 ^ normShift m ∧ m * 2 ^ normShift m < 2 ^ 11 := by
  have below : Nat.log2 m < 10 := (Nat.log2_lt pos).mpr small
  have low : 2 ^ Nat.log2 m ≤ m := Nat.log2_self_le pos
  have high : m < 2 ^ (Nat.log2 m + 1) := Nat.lt_log2_self
  rw [normShift_eq pos small]
  constructor
  · calc 2 ^ 10 = 2 ^ Nat.log2 m * 2 ^ (10 - Nat.log2 m) := by rw [← Nat.pow_add]; congr 1; omega
      _ ≤ m * 2 ^ (10 - Nat.log2 m) := Nat.mul_le_mul_right _ low
  · calc m * 2 ^ (10 - Nat.log2 m) < 2 ^ (Nat.log2 m + 1) * 2 ^ (10 - Nat.log2 m) :=
          Nat.mul_lt_mul_of_pos_right high (by positivity)
      _ = 2 ^ 11 := by rw [← Nat.pow_add]; congr 1; omega

/-- Fewer shifts leave the mantissa below bit 10 (R74). -/
theorem mul_two_pow_lt_of_lt_normShift (small : m < 2 ^ 10) {j : ℕ} (hj : j < normShift m) :
    m * 2 ^ j < 2 ^ 10 := by
  obtain ⟨-, high⟩ := mul_normShift_bounds pos small
  have fewer : m * 2 ^ (j + 1) ≤ m * 2 ^ normShift m :=
    Nat.mul_le_mul_left m (Nat.pow_le_pow_right (by decide) hj)
  rw [Nat.pow_succ, ← Nat.mul_assoc] at fewer
  omega

end

/-- Settles O45: the closed form does not depend on the number of iterations allowed. -/
theorem normalisationEndsWithinTenShifts : Obligations.NormalisationEndsWithinTenShifts := by
  intro m fuel lo hi enough
  have pos : m ≠ 0 := by omega
  have small : m < 2 ^ 10 := by omega
  obtain ⟨-, atMost⟩ := normShift_bounds pos small
  obtain ⟨normalised, -⟩ := mul_normShift_bounds pos small
  exact ⟨by rw [normShift_eq pos small, shiftCount_eq pos small (by omega)], atMost, normalised⟩

/-! ### The branches of R70 -/

section
variable {h : Half}

/-- R73: a zero gives the zero of its sign. -/
theorem widen_of_zero (hmag : mag16 h = 0#15) : widen h = zero32 (sign16 h) := by
  rw [widen, if_pos hmag]

/-- An exponent field above zero sends a pattern past the test for zero. -/
theorem mag16_ne_zero_of_exp (he : exp16 h ≠ 0#5) : mag16 h ≠ 0#15 := by
  rw [Ne, mag16_eq_zero_iff]
  exact fun hzero => he (BitVec.eq_of_toNat_eq hzero.1)

/-- R74: a subnormal is normalised, and the leading 1 is dropped. -/
theorem widen_of_subnormal (he : exp16 h = 0#5) (hm : man16 h ≠ 0#10) :
    widen h = join32 (sign16 h) (BitVec.ofNat 8 (113 - normShift (man16 h).toNat))
      (BitVec.ofNat 23 ((man16 h).toNat * 2 ^ normShift (man16 h).toNat % 2 ^ 10 * 2 ^ 13)) := by
  have hmag : mag16 h ≠ 0#15 := by
    rw [Ne, mag16_eq_zero_iff]
    exact fun hzero => hm (BitVec.eq_of_toNat_eq hzero.2)
  rw [widen, if_neg hmag, if_pos he, widenSubnormal, Nat.shiftLeft_eq, Nat.shiftLeft_eq]

/-- R76: an infinity gives the infinity of its sign. -/
theorem widen_of_infinity (he : exp16 h = 31#5) (hm : man16 h = 0#10) : widen h = inf32 (sign16 h) := by
  have hmag : mag16 h ≠ 0#15 := mag16_ne_zero_of_exp (by rw [he]; decide)
  simp [widen, he, hm, hmag]

/-- R77: a NaN gives the canonical NaN. -/
theorem widen_of_nan (he : exp16 h = 31#5) (hm : man16 h ≠ 0#10) : widen h = canonicalNaN32 := by
  have hmag : mag16 h ≠ 0#15 := mag16_ne_zero_of_exp (by rw [he]; decide)
  simp [widen, he, hm, hmag]

/-- R78: for the exponent fields 1 to 30, rebiasing adds 112. -/
theorem widen_of_normal (lo : 1 ≤ (exp16 h).toNat) (hi : (exp16 h).toNat ≤ 30) :
    widen h = join32 (sign16 h) (BitVec.ofNat 8 ((exp16 h).toNat + 112))
      (BitVec.ofNat 23 ((man16 h).toNat * 2 ^ 13)) := by
  have h0 : exp16 h ≠ 0#5 := fun he => by simp [he] at lo
  have h31 : exp16 h ≠ 31#5 := fun he => by simp [he] at hi
  have rebiased : ((exp16 h).toNat : ℤ) - 15 + 127 = (((exp16 h).toNat + 112 : ℕ) : ℤ) := by omega
  rw [widen, if_neg (mag16_ne_zero_of_exp h0), if_neg h0, if_neg h31, widenNormal, rebiased, BitVec.ofInt_natCast,
    Nat.shiftLeft_eq]

end

/-! ### The statements of the branches -/

/-- Settles O39. -/
theorem widenKeepsSignedZero : Obligations.WidenKeepsSignedZero :=
  ⟨fun x _ s hmag => exec_widen_of_eq (widen_of_zero hmag) x s, by decide, by decide⟩

/-- Settles O42. -/
theorem widenKeepsSignedInfinity : Obligations.WidenKeepsSignedInfinity :=
  ⟨fun x _ s he hm => exec_widen_of_eq (widen_of_infinity he hm) x s, by decide, by decide⟩

/-- Settles O43: the NaN branch reads neither sign nor payload. -/
theorem widenCollapsesEveryNaN : Obligations.WidenCollapsesEveryNaN :=
  ⟨fun x _ s he hm => exec_widen_of_eq (widen_of_nan he hm) x s, by decide, by decide, by decide⟩

/-- A binary16 mantissa shifted left by 13 is the mantissa above 13 zero bits (R78). -/
theorem ofNat_mul_two_pow_13 (m : BitVec 10) : BitVec.ofNat 23 (m.toNat * 2 ^ 13) = m ++ 0#13 := by
  have hm := m.isLt
  apply BitVec.eq_of_toNat_eq
  rw [BitVec.toNat_append, ← Nat.shiftLeft_add_eq_or_of_lt (BitVec.isLt _), Nat.shiftLeft_eq, BitVec.toNat_ofNat,
    BitVec.toNat_ofNat]
  omega

/-- Settles O44: `E + 112` lies within the range of eight bits. -/
theorem widenRebiasesNormals : Obligations.WidenRebiasesNormals := by
  intro x h s lo hi
  have field : (BitVec.ofNat 8 ((exp16 h).toNat + 112)).toNat = (exp16 h).toNat + 112 := by
    rw [BitVec.toNat_ofNat]
    omega
  have hwiden := widen_of_normal lo hi
  rw [ofNat_mul_two_pow_13] at hwiden
  exact ⟨_, field, by omega, by omega, exec_widen_of_eq hwiden x s⟩

/-- Settles O40: `k` is the loop's count, whose closed form gives its range and that it is the least. -/
theorem widenNormalisesSubnormals : Obligations.WidenNormalisesSubnormals := by
  refine ⟨fun x h s he hm => ?_, by decide⟩
  have small := (man16 h).isLt
  have pos : (man16 h).toNat ≠ 0 := fun hzero => hm (BitVec.eq_of_toNat_eq hzero)
  obtain ⟨kLo, kHi⟩ := normShift_bounds pos small
  obtain ⟨low, high⟩ := mul_normShift_bounds pos small
  refine ⟨normShift (man16 h).toNat, _, kLo, kHi, ?_, fun j _ hj => ?_, normShift_eq pos small, by omega, by omega,
    rfl, exec_widen_of_eq (widen_of_subnormal he hm) x s⟩
  · rw [Nat.testBit_eq_decide_div_mod_eq, decide_eq_true_iff]
    omega
  · exact Nat.testBit_lt_two_pow (mul_two_pow_lt_of_lt_normShift pos small hj)

/-- One row of R75, from the place `log` of the leading 1: the range of `M`, and the columns as functions of it. -/
theorem widen_subnormal_row {lo hi log k e32 first last : ℕ}
    (row : log ≤ 9 ∧ lo = 2 ^ log ∧ hi < 2 ^ (log + 1) ∧ k = 10 - log ∧ e32 = 113 - k ∧
      first = e32 * 2 ^ 23 ∧ last = e32 * 2 ^ 23 + (hi * 2 ^ k - 2 ^ 10) * 2 ^ 13)
    (h : Half) (he : exp16 h = 0#5) (hlo : lo ≤ (man16 h).toNat) (hhi : (man16 h).toNat ≤ hi) :
    Nat.log2 (man16 h).toNat = log ∧ normShift (man16 h).toNat = k ∧ (exp32 (widen h)).toNat = e32 ∧
      first ≤ (mag32 (widen h)).toNat ∧ (mag32 (widen h)).toNat ≤ last ∧ sign32 (widen h) = sign16 h := by
  obtain ⟨inTable, rfl, top, rfl, rfl, hfirst, hlast⟩ := row
  have small := (man16 h).isLt
  have pos : (man16 h).toNat ≠ 0 := (Nat.lt_of_lt_of_le (Nat.two_pow_pos log) hlo).ne'
  have hlog : Nat.log2 (man16 h).toNat = log := (Nat.log2_eq_iff pos).mpr ⟨hlo, hhi.trans_lt top⟩
  have hk : normShift (man16 h).toNat = 10 - log := by rw [normShift_eq pos small, hlog]
  have hwiden := widen_of_subnormal he fun hzero => pos (by rw [hzero]; rfl)
  obtain ⟨low, high⟩ := mul_normShift_bounds pos small
  have atMost : (man16 h).toNat * 2 ^ (10 - log) ≤ hi * 2 ^ (10 - log) := Nat.mul_le_mul_right _ hhi
  rw [hk] at hwiden low high
  have hexp : (exp32 (widen h)).toNat = 113 - (10 - log) := by
    rw [hwiden, exp32_join32, BitVec.toNat_ofNat]
    omega
  have hman : (man32 (widen h)).toNat = ((man16 h).toNat * 2 ^ (10 - log) - 2 ^ 10) * 2 ^ 13 := by
    rw [hwiden, man32_join32, BitVec.toNat_ofNat]
    omega
  refine ⟨hlog, hk, hexp, ?_, ?_, by rw [hwiden, sign32_join32]⟩
  · rw [mag32_eq_fields, hexp]
    omega
  · rw [mag32_eq_fields, hexp, hman]
    omega

/-- Settles O41: each row's columns are the functions of the place of the leading 1. -/
theorem widenSubnormalTable : Obligations.WidenSubnormalTable := by
  intro row hrow
  fin_cases hrow <;> exact widen_subnormal_row (by decide)

end Sys2Proof.Machine

/-! PROOFS. WIDEN as a whole, and with NARROW (R79, R80, R82; R34, log entry 10): the magnitude of what a pattern widens
to, in the whole numbers of NARROW's rounding, which exact magnitudes pass unrounded. -/

namespace Sys2Proof.Machine

/-! ### The fields of what a non-NaN widens to -/

/-- The magnitude of a binary32 normal by its fields. -/
theorem units32_join32 (s : Bit) {e f : ℕ} (lo : 1 ≤ e) (hi : e < 2 ^ 8) (hf : f < 2 ^ 23) :
    units32 (join32 s (BitVec.ofNat 8 e) (BitVec.ofNat 23 f)) = (2 ^ 23 + f) * 2 ^ (e - 1) := by
  have hexp : (BitVec.ofNat 8 e).toNat = e := by rw [BitVec.toNat_ofNat, Nat.mod_eq_of_lt hi]
  have hman : (BitVec.ofNat 23 f).toNat = f := by rw [BitVec.toNat_ofNat, Nat.mod_eq_of_lt hf]
  rw [units32_eq_significand (by rwa [exp32_join32, hexp]), significand32, exp32_join32, man32_join32, hexp, hman]

/-- The exponent field `e` and the ten upper mantissa bits `g` of what `h` widens to: a binary32 normal of the same sign
and magnitude (R79), whose exponent field is from 103 to 142 and whose 13 low bits are zero (R82). -/
def WidensToNormal (h : Half) (e g : ℕ) : Prop :=
  103 ≤ e ∧ e ≤ 142 ∧ g < 2 ^ 10 ∧
    widen h = join32 (sign16 h) (BitVec.ofNat 8 e) (BitVec.ofNat 23 (g * 2 ^ 13)) ∧
    units32 (widen h) = unitsOf 10 (mag16 h).toNat * 2 ^ 125

section
variable {h : Half}

/-- R74: normalising a subnormal keeps its magnitude, as the exponent field makes up for the shifts. -/
theorem widensToNormal_of_subnormal (he : exp16 h = 0#5) (hm : man16 h ≠ 0#10) : ∃ e g, WidensToNormal h e g := by
  have small := (man16 h).isLt
  have pos : (man16 h).toNat ≠ 0 := fun hzero => hm (BitVec.eq_of_toNat_eq hzero)
  obtain ⟨kLo, kHi⟩ := normShift_bounds pos small
  obtain ⟨low, high⟩ := mul_normShift_bounds pos small
  have hwiden := widen_of_subnormal he hm
  have hmag : unitsOf 10 (mag16 h).toNat = (man16 h).toNat := by
    rw [mag16_eq_fields, unitsOf_fields small, he]
    rfl
  generalize normShift (man16 h).toNat = k at *
  refine ⟨113 - k, (man16 h).toNat * 2 ^ k % 2 ^ 10, by omega, by omega, by omega, hwiden, ?_⟩
  have leading : 2 ^ 23 + (man16 h).toNat * 2 ^ k % 2 ^ 10 * 2 ^ 13 = (man16 h).toNat * 2 ^ k * 2 ^ 13 := by omega
  rw [hwiden, units32_join32 _ (by omega) (by omega) (by omega), leading, hmag]
  calc (man16 h).toNat * 2 ^ k * 2 ^ 13 * 2 ^ (113 - k - 1)
      = (man16 h).toNat * 2 ^ (k + 13 + (113 - k - 1)) := by rw [Nat.pow_add, Nat.pow_add]; ring
    _ = (man16 h).toNat * 2 ^ 125 := by congr 2; omega

/-- R78: rebiasing keeps the magnitude. -/
theorem widensToNormal_of_normal (lo : 1 ≤ (exp16 h).toNat) (hi : (exp16 h).toNat ≤ 30) :
    ∃ e g, WidensToNormal h e g := by
  have small := (man16 h).isLt
  have hwiden := widen_of_normal lo hi
  have hmag : unitsOf 10 (mag16 h).toNat = (2 ^ 10 + (man16 h).toNat) * 2 ^ ((exp16 h).toNat - 1) := by
    rw [mag16_eq_fields, unitsOf_fields small, magnitudeUnits, if_neg (by omega)]
  refine ⟨(exp16 h).toNat + 112, (man16 h).toNat, by omega, by omega, small, hwiden, ?_⟩
  rw [hwiden, units32_join32 _ (by omega) (by omega) (by omega), hmag,
    show (exp16 h).toNat + 112 - 1 = (exp16 h).toNat - 1 + 112 by omega]
  ring

end

/-- The branches of R70 by the magnitude bits, those that give a normal taken together. -/
theorem widen_cases (h : Half) :
    ((mag16 h).toNat = 0 ∧ widen h = zero32 (sign16 h)) ∨
    (1 ≤ (mag16 h).toNat ∧ (mag16 h).toNat < 0x7C00 ∧ ∃ e g, WidensToNormal h e g) ∨
    ((mag16 h).toNat = 0x7C00 ∧ widen h = inf32 (sign16 h)) ∨
    (0x7C01 ≤ (mag16 h).toNat ∧ widen h = canonicalNaN32) := by
  obtain ⟨zero, subnormal, normal, infinity, nan, subnormalMag, normalMag, infinityMag, nanMag⟩ :=
    binary16ClassesAreTheTabledRanges h
  cases hclass : class16 h with
  | zero => exact .inl ⟨(class16_eq_zero_iff h).mp hclass, widen_of_zero (zero.mp hclass)⟩
  | subnormal =>
    obtain ⟨he, hm⟩ := subnormal.mp hclass
    obtain ⟨lo, hi⟩ := subnormalMag.mp hclass
    exact .inr (.inl ⟨lo, by omega, widensToNormal_of_subnormal he hm⟩)
  | normal =>
    obtain ⟨expLo, expHi⟩ := normal.mp hclass
    obtain ⟨lo, hi⟩ := normalMag.mp hclass
    exact .inr (.inl ⟨by omega, by omega, widensToNormal_of_normal expLo expHi⟩)
  | infinity =>
    obtain ⟨he, hm⟩ := infinity.mp hclass
    exact .inr (.inr (.inl ⟨infinityMag.mp hclass, widen_of_infinity he hm⟩))
  | nan =>
    obtain ⟨he, hm⟩ := nan.mp hclass
    obtain ⟨lo, -⟩ := nanMag.mp hclass
    exact .inr (.inr (.inr ⟨lo, widen_of_nan he hm⟩))

/-- The exponent field and the mantissa field of what a pattern widens to (R82). -/
theorem widen_fields (h : Half) :
    ((mag16 h).toNat = 0 ∧ (exp32 (widen h)).toNat = 0 ∧ (man32 (widen h)).toNat = 0) ∨
    (1 ≤ (mag16 h).toNat ∧ (mag16 h).toNat < 0x7C00 ∧ 103 ≤ (exp32 (widen h)).toNat ∧
      (exp32 (widen h)).toNat ≤ 142 ∧ (man32 (widen h)).toNat % 2 ^ 13 = 0) ∨
    ((mag16 h).toNat = 0x7C00 ∧ (exp32 (widen h)).toNat = 255 ∧ (man32 (widen h)).toNat = 0) ∨
    (0x7C01 ≤ (mag16 h).toNat ∧ (exp32 (widen h)).toNat = 255 ∧ (man32 (widen h)).toNat = 0x400000) := by
  obtain ⟨hmag, hw⟩ | ⟨lo, hi, e, g, eLo, eHi, -, hw, -⟩ | ⟨hmag, hw⟩ | ⟨hmag, hw⟩ := widen_cases h
  · exact .inl ⟨hmag, by rw [hw, zero32, exp32_join32]; rfl, by rw [hw, zero32, man32_join32]; rfl⟩
  · refine .inr (.inl ⟨lo, hi, ?_⟩)
    rw [hw, exp32_join32, man32_join32, BitVec.toNat_ofNat, BitVec.toNat_ofNat]
    omega
  · exact .inr (.inr (.inl ⟨hmag, by rw [hw, inf32, exp32_join32]; rfl, by rw [hw, inf32, man32_join32]; rfl⟩))
  · exact .inr (.inr (.inr ⟨hmag, by rw [hw]; decide, by rw [hw]; decide⟩))

/-- R77, by the class of the operand. -/
theorem widen_of_class_nan {h : Half} (nan : class16 h = .nan) : widen h = canonicalNaN32 := by
  obtain ⟨-, -, -, -, nanFields, -⟩ := binary16ClassesAreTheTabledRanges h
  obtain ⟨he, hm⟩ := nanFields.mp nan
  exact widen_of_nan he hm

/-- R82: every non-NaN keeps its sign. -/
theorem sign32_widen {h : Half} (notNaN : class16 h ≠ .nan) : sign32 (widen h) = sign16 h := by
  obtain ⟨-, hw⟩ | ⟨-, -, e, g, -, -, -, hw, -⟩ | ⟨-, hw⟩ | ⟨hmag, -⟩ := widen_cases h
  · rw [hw, zero32, sign32_join32]
  · rw [hw, sign32_join32]
  · rw [hw, inf32, sign32_join32]
  · exact absurd ((class16_eq_nan_iff h).mpr hmag) notNaN

/-- R82 for bit 31: it is the sign. -/
theorem widen_getLsbD_31 {h : Half} (notNaN : class16 h ≠ .nan) : (widen h).getLsbD 31 = h.getLsbD 15 := by
  obtain ⟨bit31, -⟩ := binary32FieldsAreWhereTheLayoutPutsThem (widen h)
  obtain ⟨bit15, -⟩ := binary16FieldsAreWhereTheLayoutPutsThem h
  rw [← bit31, ← bit15, sign32_widen notNaN]

/-- WIDEN gives a finite pattern for the finite ones alone. -/
theorem mag32_widen_lt_iff (h : Half) : (mag32 (widen h)).toNat < 0x7F800000 ↔ (mag16 h).toNat < 0x7C00 := by
  have hM := (man32 (widen h)).isLt
  have fields := widen_fields h
  rw [mag32_eq_fields]
  omega

/-- Settles O50: the classes are conditions on the fields, which are known for each range of the magnitude bits. -/
theorem widenResultClasses : Obligations.WidenResultClasses := by
  intro h
  have fields := widen_fields h
  have htop : 0 ≠ 255 := by decide
  have hlow : ((widen h).extractLsb' 0 13).toNat = (man32 (widen h)).toNat % 2 ^ 13 := by
    rw [BitVec.extractLsb'_toNat, man32_toNat, Nat.shiftRight_zero]
    omega
  refine ⟨?_, widen_of_class_nan, widen_getLsbD_31, by omega, ?_, ?_, ?_, BitVec.eq_of_toNat_eq ?_⟩
  · rw [class16_eq_nan_iff, class32_eq_fieldClass, fieldClass_eq_nan_iff _ _ htop]
    omega
  · rw [class32_eq_fieldClass, fieldClass_eq_zero_iff]
    omega
  · rw [class32_eq_fieldClass, fieldClass_eq_infinity_iff _ _ htop, fieldClass_eq_nan_iff _ _ htop]
    omega
  · rw [Ne, class32_eq_fieldClass, fieldClass_eq_subnormal_iff]
    omega
  · rw [hlow, BitVec.toNat_ofNat]
    omega

/-! ### Exactness (R79) -/

section
variable {h : Half} (finite : (mag16 h).toNat < 0x7C00)
include finite

theorem class16_ne_nan_of_finite : class16 h ≠ .nan := by
  rw [Ne, class16_eq_nan_iff]
  omega

/-- R79 in whole numbers: 2^125 units of binary32 make one of binary16. -/
theorem units32_widen : units32 (widen h) = unitsOf 10 (mag16 h).toNat * 2 ^ 125 := by
  obtain ⟨hmag, -⟩ | ⟨-, -, e, g, -, -, -, -, hunits⟩ | ⟨hmag, -⟩ | ⟨hmag, -⟩ := widen_cases h
  · have hzero : (mag32 (widen h)).toNat = 0 := by
      have fields := widen_fields h
      rw [mag32_eq_fields]
      omega
    rw [units32, hzero, hmag]
    rfl
  · exact hunits
  · omega
  · omega

/-- R79: WIDEN keeps the magnitude. -/
theorem magnitude32_widen : magnitude32 (widen h) = halfValue (mag16 h).toNat := by
  rw [magnitude32, halfValue, units32_widen finite]
  push_cast
  norm_num
  ring

end

/-- R79: WIDEN keeps the value, and what has none gives what has none. -/
theorem value32_widen (h : Half) : value32 (widen h) = value16 h := by
  refine Option.ext fun v => ?_
  rw [value32_eq_some_iff, value16_eq_some_iff, mag32_widen_lt_iff]
  refine and_congr_right fun finite => ?_
  rw [sign32_widen (class16_ne_nan_of_finite finite), magnitude32_widen finite]

theorem class32_widen_of_infinity {h : Half} (infinite : class16 h = .infinity) : class32 (widen h) = .infinity := by
  have fields := widen_fields h
  rw [class16_eq_infinity_iff] at infinite
  rw [class32_eq_infinity_iff, mag32_eq_fields]
  omega

/-- Settles O46. -/
theorem widenIsExact : Obligations.WidenIsExact :=
  ⟨fun h _ => value32_widen h, fun _ => class32_widen_of_infinity⟩

/-! ### The round trips (R80) -/

/-- A magnitude that is a binary16 one is its own nearest (R62, R80). -/
theorem mag16_narrow_of_exact {a : Word} (notNaN : class32 a ≠ .nan) {i : ℕ} (hi : i < 0x7C00)
    (exact : magnitude32 a = halfValue i) : (mag16 (narrow a)).toNat = i := by
  obtain ⟨nearest, -⟩ := narrow_nearest notNaN hi
  rw [← exact, sub_self, abs_zero, abs_nonpos_iff, sub_eq_zero, exact] at nearest
  exact halfValue_strictMono.injective nearest

theorem class32_widen_ne_nan {h : Half} (notNaN : class16 h ≠ .nan) : class32 (widen h) ≠ .nan := by
  obtain ⟨nan, -⟩ := widenResultClasses h
  exact nan.not.mpr notNaN

/-- R80: narrowing takes the magnitude of what was widened back, infinity's included. -/
theorem mag16_narrow_widen {h : Half} (notNaN : class16 h ≠ .nan) :
    (mag16 (narrow (widen h))).toNat = (mag16 h).toNat := by
  rcases Nat.lt_or_ge (mag16 h).toNat 0x7C00 with finite | infinite
  · exact mag16_narrow_of_exact (class32_widen_ne_nan notNaN) finite (magnitude32_widen finite)
  · have hmag : (mag16 h).toNat = 0x7C00 := by
      rw [Ne, class16_eq_nan_iff] at notNaN
      omega
    have fields := widen_fields h
    have he : exp32 (widen h) = 255#8 := BitVec.eq_of_toNat_eq (by rw [BitVec.toNat_ofNat]; omega)
    have hm : man32 (widen h) = 0#23 := BitVec.eq_of_toNat_eq (by rw [BitVec.toNat_ofNat]; omega)
    rw [narrow_of_infinity he hm, mag16_inf16, hmag]

/-- Settles O47: sign and magnitude bits both come back. -/
theorem narrowUndoesWiden : Obligations.NarrowUndoesWiden := by
  refine fun h => ⟨fun notNaN => half_ext ?_ (mag16_narrow_widen notNaN), fun nan => ?_⟩
  · rw [sign16_narrow (class32_widen_ne_nan notNaN), sign32_widen notNaN]
  · rw [widen_of_class_nan nan]
    decide

/-- Settles O49: no NaN but the canonical one comes out of NARROW, and that one comes back. -/
theorem narrowingAgainChangesNothing : Obligations.NarrowingAgainChangesNothing := by
  intro a
  by_cases nan : class32 a = .nan
  · rw [narrow_of_class_nan nan]
    decide
  · obtain ⟨hnan, -⟩ := narrowResultClasses a
    obtain ⟨back, -⟩ := narrowUndoesWiden (narrow a)
    exact back (hnan.not.mpr nan)

/-- A binary32 pattern is its sign and its magnitude bits. -/
theorem word_ext {a b : Word} (hsign : sign32 a = sign32 b) (hmag : (mag32 a).toNat = (mag32 b).toNat) : a = b := by
  rw [← BitVec.toNat_inj, sign32_toNat, sign32_toNat] at hsign
  rw [mag32_toNat, mag32_toNat] at hmag
  apply BitVec.eq_of_toNat_eq
  omega

/-- Magnitudes tell the magnitude bits apart. -/
theorem mag32_eq_of_magnitude32_eq {a b : Word} (equal : magnitude32 a = magnitude32 b) :
    (mag32 a).toNat = (mag32 b).toNat := by
  rw [magnitude32, magnitude32, mul_left_inj' (by positivity), Nat.cast_inj] at equal
  exact (unitsOf_strictMono 23).injective equal

/-- The magnitude of a finite binary16 pattern's value. -/
theorem abs_value16 {h : Half} {v : ℚ} (hv : value16 h = some v) : |v| = halfValue (mag16 h).toNat := by
  obtain ⟨-, rfl⟩ := value16_eq_some_iff.mp hv
  exact abs_signFactor_mul _ (halfValue_nonneg _)

/-- The sign of a non-NaN goes through both conversions. -/
theorem sign32_widen_narrow {a : Word} (notNaN : class32 a ≠ .nan) : sign32 (widen (narrow a)) = sign32 a := by
  obtain ⟨hnan, -⟩ := narrowResultClasses a
  rw [sign32_widen (hnan.not.mpr notNaN), sign16_narrow notNaN]

/-- R80: a magnitude that is a binary16 one goes through both conversions. -/
theorem widen_narrow_of_exact {a : Word} (notNaN : class32 a ≠ .nan) {i : ℕ} (hi : i < 0x7C00)
    (exact : magnitude32 a = halfValue i) : widen (narrow a) = a := by
  have hmag := mag16_narrow_of_exact notNaN hi exact
  refine word_ext (sign32_widen_narrow notNaN) (mag32_eq_of_magnitude32_eq ?_)
  rw [magnitude32_widen (by rwa [hmag]), hmag, exact]

/-- R55, R76: an infinity goes through both conversions. -/
theorem widen_narrow_of_infinity {a : Word} (infinite : class32 a = .infinity) : widen (narrow a) = a := by
  have notNaN : class32 a ≠ .nan := by rw [infinite]; decide
  obtain ⟨-, -, -, infinity, -⟩ := narrowResultClasses a
  have after := class32_widen_of_infinity ((infinity notNaN).mpr (.inl infinite))
  rw [class32_eq_infinity_iff] at after infinite
  exact word_ext (sign32_widen_narrow notNaN) (after.trans infinite.symm)

/-- Settles O48: a common value is a common magnitude, and the sign goes through by itself, so that a zero may have
either sign in `h`. -/
theorem widenUndoesNarrowOnHalfValues : Obligations.WidenUndoesNarrowOnHalfValues := by
  refine ⟨fun a h v hv hv16 => ?_, fun _ => widen_narrow_of_infinity⟩
  obtain ⟨finite, -⟩ := value16_eq_some_iff.mp hv16
  exact widen_narrow_of_exact (class32_ne_nan_of_value hv) finite ((abs_value32 hv).symm.trans (abs_value16 hv16))

end Sys2Proof.Machine

/-! PROOFS. No exceptions (R90, R92): every request and every step goes on, signalling NaNs included. -/

namespace Sys2Proof.Machine

theorem exec_answers (i : Instr) (s : State) : ∃ t, exec i s = .next t := ⟨_, exec_eq i s⟩

/-- Settles O10: the type of faults has no constructor. -/
theorem noRequestFaultsOrIsRefused : Obligations.NoRequestFaultsOrIsRefused :=
  ⟨exec_answers, step_answers, fun fault => nomatch fault⟩

/-- Settles O51: both NaNs give the canonical NaN (R56, R77), and the quiet bit plays no part. -/
theorem signallingNaNsAreNotToldApart : Obligations.SignallingNaNsAreNotToldApart := by
  refine ⟨fun s a b nan nan' _ => ⟨?_, exec_answers _ s⟩, fun s x h g nan nan' _ => ⟨?_, exec_answers _ s⟩⟩
  · rw [exec_narrow_of_eq (narrow_of_class_nan nan), exec_narrow_of_eq (narrow_of_class_nan nan')]
  · rw [exec_widen_of_eq (widen_of_class_nan nan), exec_widen_of_eq (widen_of_class_nan nan')]

end Sys2Proof.Machine

/-! PROOFS. Runs of one instance (R103, R106): each request gets its result, and may take the last one as its operand. -/

namespace Sys2Proof.Machine

/-- A served request's result comes before the results of the rest of the run. -/
theorem runRequests_cons {i : Instr} {rest : List Instr} {s t u : State} {ys : List Word}
    (ht : serve i s = .next t) (hu : runRequests rest t = .next (u, ys)) :
    runRequests (i :: rest) s = .next (u, t.y :: ys) := by
  simp only [runRequests, ht, hu]

/-- R106, by induction on the requests from any state: each request is served where the one before it ended. -/
theorem runRequests_answers (requests : List Instr) (s : State) :
    ∃ t, runRequests requests s = .next (t, requests.map result) := by
  induction requests generalizing s with
  | nil => exact ⟨s, rfl⟩
  | cons i rest ih =>
    obtain ⟨t, ht, hy⟩ := serve_answers i s
    obtain ⟨u, hu⟩ := ih t
    exact ⟨u, by rw [runRequests_cons ht hu, hy, List.map_cons]⟩

/-- Settles O52: the run's answer has one result for each request, so the run is safe. -/
theorem runGivesEveryRequestItsResult : Obligations.RunGivesEveryRequestItsResult := by
  intro requests s
  obtain ⟨t, ht⟩ := runRequests_answers requests s
  exact ⟨⟨t, requests.map result, ht, List.length_map result⟩, t, ht⟩

/-- NARROW's result on the port, taken as WIDEN's operand, is the binary16 pattern (R17, R38). -/
@[simp] theorem widenOperand_narrowResult (r : Half) : widenOperand (narrowResult r) = r :=
  widenOperand_joinHalves 0#16 r

/-- Settles O54: the second request gets its result from whatever state the first leaves, and its operand is the `y`
the first drove. -/
theorem requestsFollowEachOtherAtOnce : Obligations.RequestsFollowEachOtherAtOnce := by
  refine ⟨fun a s => ?_, fun x h s => ?_⟩
  · obtain ⟨t, ht, hy⟩ := serve_answers (.narrow a) s
    obtain ⟨u, hu, hy'⟩ := serve_answers (.widen (t.y.extractLsb' 16 16) (widenOperand t.y)) t
    have operand : widenOperand t.y = narrow a := by rw [hy, result, widenOperand_narrowResult]
    exact ⟨t, u, ht, hu, by rw [hy', result, operand]⟩
  · obtain ⟨t, ht, hy⟩ := serve_answers (.widen x h) s
    obtain ⟨u, hu, hy'⟩ := serve_answers (.narrow t.y) t
    have operand : t.y = widen h := hy
    exact ⟨t, u, ht, hu, by rw [hy', result, operand, narrowResult]⟩

end Sys2Proof.Machine
